-- ==== Sys2Proof/Word.lean ====
section
/-! DEFINITION. The word, the register index and their plainest arithmetic
(spec/00_scope.md R10, spec/10_state.md R20). -/

namespace Sys2Proof

/-- A **Word**: a 32-bit unsigned integer (R10). `v.toNat` is the spec's `u(v)` and `v.toInt` its `s(v)`;
`+` and `-` on Words are modulo 2^32. -/
abbrev Word := BitVec 32

/-- A register index 0..15 (R20). Every index an instruction word can name is one (R81); only `mul` computes
an index outside this range, which is why the register file also answers checked requests (R11, R109). -/
abbrev RegIdx := Fin 16

/-- Register 14 is the stack pointer (R21, R22). -/
abbrev spReg : RegIdx := 14

end Sys2Proof
end

