-- ==== Sys2Proof/Syntax.lean ====
section
/-! DEFINITION. The instructions as syntax: one constructor per row of spec/opcode_table.json
(spec/30_encoding.md R83, R84), and the mnemonic and format of each. -/

namespace Sys2Proof

/-- The three instruction formats (R72): register-immediate, register-memory, register-register. -/
inductive Format where
  | RI | RM | RR
  deriving DecidableEq, Repr

/-- The sixteen mnemonics, in the handler table's order (R83, R84). -/
inductive Mnemonic where
  | addi | lc | push | pop | syscall
  | jmp | jne | jeq | jle | jl | jge | jg | ret
  | mov | mul | loadr
  deriving DecidableEq, Repr

/-- Every mnemonic once, in the order of R84. -/
def Mnemonic.all : List Mnemonic :=
  [.addi, .lc, .push, .pop, .syscall, .jmp, .jne, .jeq, .jle, .jl, .jge, .jg, .ret, .mov, .mul, .loadr]

/-- The format bound to each mnemonic (R84). -/
def Mnemonic.format : Mnemonic → Format
  | .addi | .lc | .push | .pop | .syscall => .RI
  | .jmp | .jne | .jeq | .jle | .jl | .jge | .jg | .ret => .RM
  | .mov | .mul | .loadr => .RR

/-- A decoded instruction. `value` is the operand AFTER extension to a Word, as R77 and R104 give it:
`sext_20` for RI, `zext_20` for RM, `sext_16` for RR. The fields a handler ignores (R80) are kept, so that
re-encoding gives back the identical word (R79). -/
inductive Instr where
  /-- add-immediate (R120) -/
  | addi (reg : RegIdx) (value : Word)
  /-- load-constant (R121) -/
  | lc (reg : RegIdx) (value : Word)
  /-- push (R130) -/
  | push (reg : RegIdx) (value : Word)
  /-- pop (R131) -/
  | pop (reg : RegIdx) (value : Word)
  /-- syscall (R140) -/
  | syscall (reg : RegIdx) (value : Word)
  /-- call/jump, unconditional (R151) -/
  | jmp (reg : RegIdx) (value : Word)
  /-- conditional jump, not-equal (R152) -/
  | jne (reg : RegIdx) (value : Word)
  /-- conditional jump, equal (R153) -/
  | jeq (reg : RegIdx) (value : Word)
  /-- conditional jump, less-or-equal (R154) -/
  | jle (reg : RegIdx) (value : Word)
  /-- conditional jump, less-than (R155) -/
  | jl (reg : RegIdx) (value : Word)
  /-- conditional jump, greater-or-equal (R156) -/
  | jge (reg : RegIdx) (value : Word)
  /-- conditional jump, greater-than (R157) -/
  | jg (reg : RegIdx) (value : Word)
  /-- return (R158) -/
  | ret (reg : RegIdx) (value : Word)
  /-- move (R170): `inReg` is the destination, `outReg` the source (R174) -/
  | mov (inReg outReg : RegIdx) (value : Word)
  /-- multiply (R172) -/
  | mul (inReg outReg : RegIdx) (value : Word)
  /-- load-from-register-address (R173) -/
  | loadr (inReg outReg : RegIdx) (value : Word)
  deriving DecidableEq, Repr

/-- The mnemonic of an instruction. -/
def Instr.mnemonic : Instr → Mnemonic
  | .addi _ _ => .addi
  | .lc _ _ => .lc
  | .push _ _ => .push
  | .pop _ _ => .pop
  | .syscall _ _ => .syscall
  | .jmp _ _ => .jmp
  | .jne _ _ => .jne
  | .jeq _ _ => .jeq
  | .jle _ _ => .jle
  | .jl _ _ => .jl
  | .jge _ _ => .jge
  | .jg _ _ => .jg
  | .ret _ _ => .ret
  | .mov _ _ _ => .mov
  | .mul _ _ _ => .mul
  | .loadr _ _ _ => .loadr

/-- The operand `value` of an instruction, which every format has (R73 to R75). -/
def Instr.value : Instr → Word
  | .addi _ v | .lc _ v | .push _ v | .pop _ v | .syscall _ v => v
  | .jmp _ v | .jne _ v | .jeq _ v | .jle _ v | .jl _ v | .jge _ v | .jg _ v | .ret _ v => v
  | .mov _ _ v | .mul _ _ v | .loadr _ _ v => v

end Sys2Proof
end

