-- ==== Sys2Proof/Config.lean ====
section
/-! DEFINITION. The configuration record of spec/00_scope.md R8 (plain data, an argument of the whole model), and
the uninterpreted constants behind the values the spec leaves to the console's host (spec/43_syscall.md R147).
The spec's default values stand in Machine/Defaults.lean. -/

namespace Sys2Proof

/-- The parameter `OPC`: the opcode number of each mnemonic (R8, R82, R84). -/
structure Opcodes where
  addi : BitVec 8
  lc : BitVec 8
  push : BitVec 8
  pop : BitVec 8
  syscall : BitVec 8
  jmp : BitVec 8
  jne : BitVec 8
  jeq : BitVec 8
  jle : BitVec 8
  jl : BitVec 8
  jge : BitVec 8
  jg : BitVec 8
  ret : BitVec 8
  mov : BitVec 8
  mul : BitVec 8
  loadr : BitVec 8
  deriving DecidableEq, Repr, Inhabited

/-- `OPC(m)`: the opcode bound to a mnemonic. -/
def Opcodes.code (o : Opcodes) : Mnemonic → BitVec 8
  | .addi => o.addi
  | .lc => o.lc
  | .push => o.push
  | .pop => o.pop
  | .syscall => o.syscall
  | .jmp => o.jmp
  | .jne => o.jne
  | .jeq => o.jeq
  | .jle => o.jle
  | .jl => o.jl
  | .jge => o.jge
  | .jg => o.jg
  | .ret => o.ret
  | .mov => o.mov
  | .mul => o.mul
  | .loadr => o.loadr

/-- The parameters `SYS_*`: the five service codes, compared with the signed operand of `syscall` (R8, R140). -/
structure SysCodes where
  exit : Int
  readInt : Int
  printInt : Int
  readChar : Int
  writeChar : Int
  deriving DecidableEq, Repr, Inhabited

/-- The configuration record (R8). It is fixed at construction and no instruction changes it (R34, R230). -/
structure Config where
  /-- `MEM_SIZE`: how many words of memory there are -/
  memSize : Nat
  /-- `STACK_TOP`: the spec's "top of memory" -/
  stackTop : Word
  /-- `OPC` -/
  opc : Opcodes
  /-- `SYS_EXIT`, `SYS_READ_INT`, `SYS_PRINT_INT`, `SYS_READ_CHAR`, `SYS_WRITE_CHAR` -/
  sys : SysCodes
  /-- `MUL_SIGNED`: signedness of the 64-bit product (R171) -/
  mulSigned : Bool
  deriving DecidableEq, Repr, Inhabited

/-- FREE VALUE (log 8): the Word the console's host answers to the n-th draw for which the state lists no answer.
R147: a draw is "constrained by nothing in this spec"; nothing can evaluate this constant. -/
opaque Config.consoleAnswer : Nat → Word

end Sys2Proof
end

