-- ==== Sys2Proof/Machine/Defaults.lean ====
section
/-! DEFINITION. The default values the spec gives the configuration record (spec/00_scope.md R8). The
numbers are the rules' (R8, R84; spec/92_eei_decisions.md D1, D3, D4, D8, D14 say why); that the machine after reset
carries them is the model's DESIGN CHOICE (log 2 to 5), unsafe for a claim that uses a number. -/

namespace Sys2Proof

/-- The default `OPC` (R84, decision D1). In the state after reset by log 2. -/
def Opcodes.default : Opcodes where
  addi := 3
  lc := 12
  push := 38
  pop := 39
  syscall := 1
  jmp := 46
  jne := 47
  jeq := 48
  jle := 49
  jl := 50
  jge := 51
  jg := 52
  ret := 42
  mov := 24
  mul := 6
  loadr := 68

/-- The default `SYS_*` (R8, decision D14). In the state after reset by log 4. -/
def SysCodes.default : SysCodes where
  exit := 0
  readInt := 100
  printInt := 102
  readChar := 104
  writeChar := 105

/-- The default configuration (R8). In the state after reset by log 2 to 5. -/
def Config.default : Config where
  memSize := 1048576
  stackTop := 1048575
  opc := Opcodes.default
  sys := SysCodes.default
  mulSigned := false

end Sys2Proof
end

