-- ==== Sys2Proof/WellFormed.lean ====
section
/-! DEFINITION. Which instructions can be encoded (spec/30_encoding.md R78, R90: the operand ranges) and which
configurations the spec admits (spec/00_scope.md R8, spec/93_implementation_defined.md U12). -/

namespace Sys2Proof

/-- The RI operand range: s(value) in -524288..524287 (R73, R78). -/
def inRangeRI (v : Word) : Bool := decide (-524288 ≤ v.toInt) && decide (v.toInt ≤ 524287)

/-- The RM operand range: value in 0..1048575 (R74, R78). -/
def inRangeRM (v : Word) : Bool := decide (v.toNat ≤ 1048575)

/-- The RR operand range: s(value) in -32768..32767 (R75, R78). -/
def inRangeRR (v : Word) : Bool := decide (-32768 ≤ v.toInt) && decide (v.toInt ≤ 32767)

/-- An instruction is well-formed when its operand lies in its format's range; register indices are in range by
their type (R81). -/
def Instr.wf (i : Instr) : Bool :=
  match i.mnemonic.format with
  | .RI => inRangeRI i.value
  | .RM => inRangeRM i.value
  | .RR => inRangeRR i.value

/-- `OPC` is injective (R8, R82, U12). -/
abbrev Opcodes.Injective (o : Opcodes) : Prop := (Mnemonic.all.map o.code).Nodup

/-- The five service codes as a list. -/
def SysCodes.toList (c : SysCodes) : List Int := [c.exit, c.readInt, c.printInt, c.readChar, c.writeChar]

/-- The service codes are pairwise distinct and each fits the signed 20-bit operand (R8). -/
abbrev SysCodes.Wf (c : SysCodes) : Prop :=
  c.toList.Nodup ∧ ∀ n ∈ c.toList, -524288 ≤ n ∧ n ≤ 524287

/-- The constraints of R8 on the configuration record. -/
abbrev Config.Wf (c : Config) : Prop :=
  (2 ≤ c.memSize ∧ c.memSize ≤ 2 ^ 32 - 1)
    ∧ (c.stackTop.toNat = c.memSize - 1 ∨ c.stackTop.toNat = c.memSize)
    ∧ c.opc.Injective
    ∧ c.sys.Wf

end Sys2Proof
end

