-- ==== Sys2Proof/Decode.lean ====
section
/-! DEFINITION. The instruction codec: the field extractor, the decoder DEC (spec/30_encoding.md R70 to R77, R85;
spec/40_fetch_decode_dispatch.md R103, R104, R107) and its inverse, the encoder (R78). -/

namespace Sys2Proof

/-- `op = w[31:24]` (R71). -/
def opcodeField (w : Word) : BitVec 8 := w.extractLsb' 24 8

/-- `reg` or `in_reg`, `w[23:20]` (R73 to R75). -/
def regField (w : Word) : RegIdx := (w.extractLsb' 20 4).toFin

/-- `out_reg`, `w[19:16]` (R75). -/
def outRegField (w : Word) : RegIdx := (w.extractLsb' 16 4).toFin

/-- `sext_20` (R10). -/
def sext20 (v : BitVec 20) : Word := v.signExtend 32

/-- `zext_20` (R10). -/
def zext20 (v : BitVec 20) : Word := v.setWidth 32

/-- `sext_16` (R10). -/
def sext16 (v : BitVec 16) : Word := v.signExtend 32

/-- The fields of an RI or an RM word (R73, R74). -/
structure RegFields where
  op : BitVec 8
  reg : RegIdx
  value : Word
  deriving DecidableEq, Repr

/-- The fields of an RR word (R75). -/
structure RegRegFields where
  op : BitVec 8
  inReg : RegIdx
  outReg : RegIdx
  value : Word
  deriving DecidableEq, Repr

/-- `decode(w, RI)` (R77). -/
def decodeRI (w : Word) : RegFields := ⟨opcodeField w, regField w, sext20 (w.extractLsb' 0 20)⟩

/-- `decode(w, RM)` (R77). -/
def decodeRM (w : Word) : RegFields := ⟨opcodeField w, regField w, zext20 (w.extractLsb' 0 20)⟩

/-- `decode(w, RR)` (R77). -/
def decodeRR (w : Word) : RegRegFields :=
  ⟨opcodeField w, regField w, outRegField w, sext16 (w.extractLsb' 0 16)⟩

/-- DEC's output (R107): an illegal opcode, rejected by name with its number, or a decoded instruction. -/
inductive Decoded where
  | illegal (op : BitVec 8)
  | instr (i : Instr)
  deriving DecidableEq, Repr

/-- The Command Table's lookup from opcode to handler, a partial function on 0..255 (R82, R85). -/
def Opcodes.lookup (o : Opcodes) (op : BitVec 8) : Option Mnemonic :=
  Mnemonic.all.find? fun m => o.code m == op

/-- Field extraction for a selected handler (R104). -/
def operandsOf (m : Mnemonic) (w : Word) : Instr :=
  match m with
  | .addi => .addi (decodeRI w).reg (decodeRI w).value
  | .lc => .lc (decodeRI w).reg (decodeRI w).value
  | .push => .push (decodeRI w).reg (decodeRI w).value
  | .pop => .pop (decodeRI w).reg (decodeRI w).value
  | .syscall => .syscall (decodeRI w).reg (decodeRI w).value
  | .jmp => .jmp (decodeRM w).reg (decodeRM w).value
  | .jne => .jne (decodeRM w).reg (decodeRM w).value
  | .jeq => .jeq (decodeRM w).reg (decodeRM w).value
  | .jle => .jle (decodeRM w).reg (decodeRM w).value
  | .jl => .jl (decodeRM w).reg (decodeRM w).value
  | .jge => .jge (decodeRM w).reg (decodeRM w).value
  | .jg => .jg (decodeRM w).reg (decodeRM w).value
  | .ret => .ret (decodeRM w).reg (decodeRM w).value
  | .mov => .mov (decodeRR w).inReg (decodeRR w).outReg (decodeRR w).value
  | .mul => .mul (decodeRR w).inReg (decodeRR w).outReg (decodeRR w).value
  | .loadr => .loadr (decodeRR w).inReg (decodeRR w).outReg (decodeRR w).value

/-- The decoder DEC (R103, R104, R107): total on every word, and no state. -/
def decode (o : Opcodes) (w : Word) : Decoded :=
  match o.lookup (opcodeField w) with
  | none => .illegal (opcodeField w)
  | some m => .instr (operandsOf m w)

/-- `encode(RI, op, reg, v) = op ++ reg ++ (v mod 2^20)` (R78). -/
def encodeRI (f : RegFields) : Word :=
  f.op ++ (BitVec.ofFin f.reg : BitVec 4) ++ (f.value.setWidth 20 : BitVec 20)

/-- `encode(RM, op, reg, a) = op ++ reg ++ a` (R78). -/
def encodeRM (f : RegFields) : Word :=
  f.op ++ (BitVec.ofFin f.reg : BitVec 4) ++ (f.value.setWidth 20 : BitVec 20)

/-- `encode(RR, op, in_reg, out_reg, v) = op ++ in_reg ++ out_reg ++ (v mod 2^16)` (R78). -/
def encodeRR (f : RegRegFields) : Word :=
  f.op ++ (BitVec.ofFin f.inReg : BitVec 4) ++ (BitVec.ofFin f.outReg : BitVec 4)
    ++ (f.value.setWidth 16 : BitVec 16)

/-- The word of an instruction (R78, R84). -/
def encode (o : Opcodes) (i : Instr) : Word :=
  match i with
  | .addi r v => encodeRI ⟨o.addi, r, v⟩
  | .lc r v => encodeRI ⟨o.lc, r, v⟩
  | .push r v => encodeRI ⟨o.push, r, v⟩
  | .pop r v => encodeRI ⟨o.pop, r, v⟩
  | .syscall r v => encodeRI ⟨o.syscall, r, v⟩
  | .jmp r v => encodeRM ⟨o.jmp, r, v⟩
  | .jne r v => encodeRM ⟨o.jne, r, v⟩
  | .jeq r v => encodeRM ⟨o.jeq, r, v⟩
  | .jle r v => encodeRM ⟨o.jle, r, v⟩
  | .jl r v => encodeRM ⟨o.jl, r, v⟩
  | .jge r v => encodeRM ⟨o.jge, r, v⟩
  | .jg r v => encodeRM ⟨o.jg, r, v⟩
  | .ret r v => encodeRM ⟨o.ret, r, v⟩
  | .mov a b v => encodeRR ⟨o.mov, a, b, v⟩
  | .mul a b v => encodeRR ⟨o.mul, a, b, v⟩
  | .loadr a b v => encodeRR ⟨o.loadr, a, b, v⟩

/-- The instruction the decoder reads, under the spec's default opcodes, from an instruction whose bits are `w`,
`nbits` of them given and the rest 0. Every instruction is one word (R70), so only its 32 bits are read. -/
def decodeTableWord (nbits w : Nat) : Option Instr :=
  match decode Opcodes.default (BitVec.ofNat 32 (w % 2 ^ nbits)) with
  | .illegal _ => none
  | .instr i => some i

end Sys2Proof
end

