-- ==== Sys2Proof/Machine/State.lean ====
section
/-! DEFINITION. The state of the Processor as the spec gives it (spec/10_state.md R20 to R38), the reasons a step
can stop (spec/60_exceptions.md R200 to R208), and the state after construction (R38, R230). -/

namespace Sys2Proof.Machine

/-- One word of memory at a word address: the spec's smallest addressable unit (R50, R54; log 6). -/
abbrev WordCell := Nat × Word

/-- Memory as the list of the words that differ from 0, addresses strictly rising; an unlisted address reads 0,
which is what construction and `load_program` leave in it (R37, R38; log 7). -/
abbrev Memory := List WordCell

/-- The canonical form: addresses strictly rising, and no entry equal to what an unlisted address reads as. -/
abbrev Memory.wf (m : Memory) : Prop :=
  m.Pairwise (fun c d => c.1 < d.1) ∧ ∀ c ∈ m, c.2 ≠ 0

/-- Why a step faults (R200): the cause with its argument, and `site`, the address of the word being executed.
A fault is terminal and carries no machine state (R204, R205; log 11). -/
inductive Fault where
  /-- `DispatchFault(op)` (R201): raised by the dispatch step for an opcode `OPC` does not assign. Safe: if the real
  machine binds that opcode, the model stops where it goes on (log 17). -/
  | dispatch (op : BitVec 8) (site : Word)
  /-- `BoundsFault(mem, addr)` (R202): raised by the fetch, `push`, `pop`, the taken jumps, `ret` and `loadr` for an
  address `>= MEM_SIZE`. Safe: the spec states this fault. -/
  | boundsMem (addr : Word) (site : Word)
  /-- `BoundsFault(reg, index)` (R203): raised by `mul` with `in_reg = 15`. Safe: the spec states this fault. -/
  | boundsReg (index : Nat) (site : Word)
  deriving DecidableEq, Repr, Inhabited

/-- Why a run halted (R207). -/
inductive HaltReason where
  /-- the exit service (R141) -/
  | exit
  /-- a code that is none of the five (R146), with `s(value)` -/
  | unknownSyscall (code : Int)
  deriving DecidableEq, Repr, Inhabited

/-- `run_state` (R31), with the halt reason and the fault cause the spec asks the model to keep. -/
inductive RunState where
  | unloaded
  | ready
  | running
  | halted (reason : HaltReason)
  | faulted (cause : Fault)
  deriving DecidableEq, Repr, Inhabited

/-- Why a step has no meaning. -/
inductive Refusal where
  /-- Raised by an arm of `exec` whose instruction has no meaning yet; no arm does. Safe. -/
  | notModelled (mnemonic : String)
  /-- Raised by the step in Unloaded (R100): no program has been loaded. Safe: the spec refuses it too. -/
  | notLoaded
  /-- Raised by the step in Halted (R100); it repeats the outcome that ended the run. Safe: the spec refuses it too. -/
  | alreadyHalted (reason : HaltReason)
  /-- Raised by the step in Faulted (R100); it repeats the outcome that ended the run. Safe: the spec refuses it too. -/
  | alreadyFaulted (cause : Fault)
  deriving DecidableEq, Repr, Inhabited

/-- An output handed to the host, with the whole Word (R147). -/
inductive ConsoleEvent where
  | outInt (w : Word)
  | outChar (w : Word)
  | diag (w : Word)
  deriving DecidableEq, Repr, Inhabited

/-- The console as the model sees it (R147; log 8, 9). -/
structure Console where
  /-- MODEL's field: the host's answers to the coming read services, next first -/
  answers : List Word
  /-- MODEL's field: how many draws found no answer listed and took a free value -/
  draws : Nat
  /-- the outputs of this run, in program order -/
  events : List ConsoleEvent
  deriving DecidableEq, Repr, Inhabited

/-- The whole state of the Processor (R20 to R37). -/
structure State where
  /-- the configuration record, fixed at construction (R8, R230; log 1) -/
  cfg : Config
  /-- `x[0..15]` (R20) -/
  regs : Vector Word 16
  /-- `pc`, a word index (R24) -/
  pc : Word
  /-- `flags`, one signed integer (R27) -/
  flags : Word
  /-- `frame` (R30) -/
  frame : Word
  /-- `run_state` (R31) -/
  runState : RunState
  /-- `M[0..MEM_SIZE-1]` (R33) -/
  mem : Memory
  /-- the console (R147) -/
  console : Console
  deriving DecidableEq, Repr, Inhabited

/-- The state after construction with a configuration (R38, R230). -/
def State.construct (c : Config) : State where
  cfg := c
  regs := (Vector.replicate 16 0).set 14 c.stackTop
  pc := 0
  flags := 0
  frame := c.stackTop
  runState := .unloaded
  mem := []
  console := ⟨[], 0, []⟩

/-- The machine right after reset: construction with the default configuration (R38, R230; log 10). -/
def State.reset : State := State.construct Config.default

end Sys2Proof.Machine
end

