-- ==== Sys2Proof/Machine/Ops.lean ====
section
/-! DEFINITION. The named operations over memory, registers, the console and `run_state` that the handlers are
written from: the LSU (spec/20_memory.md R50 to R53), RF control (spec/40_fetch_decode_dispatch.md R109), the raising
of a fault (spec/60_exceptions.md R200 to R204), the two ends of a handler (R13, R105) and the fetch (R101, R102). -/

namespace Sys2Proof.Machine

/-! ### Memory -/

/-- `M[a]`; an unlisted word is 0 (R37, R38; log 7). -/
def Memory.read : Memory → Nat → Word
  | [], _ => 0
  | c :: m, a => if c.1 = a then c.2 else Memory.read m a

/-- Memory with the entry at `a` removed: `M[a]` is 0. -/
def Memory.erase (m : Memory) (a : Nat) : Memory := m.filter fun c => c.1 != a

/-- Insertion of a cell at its place by address. -/
def Memory.insert (a : Nat) (v : Word) : Memory → Memory
  | [] => [(a, v)]
  | c :: m => if a < c.1 then (a, v) :: c :: m else c :: Memory.insert a v m

/-- `M[a] <- v`, keeping the canonical form: writing 0 removes the entry. -/
def Memory.write (m : Memory) (a : Nat) (v : Word) : Memory :=
  if v = 0 then m.erase a else Memory.insert a v (m.erase a)

/-- The machine with another memory. -/
def State.setMem (s : State) (m : Memory) : State := { s with mem := m }

/-! ### Raising a fault -/

/-- The address of the word being executed, as a handler sees it: `pc - 1`, since `pc` has been advanced before the
handler runs (R102, R200). -/
def State.site (s : State) : Word := s.pc - 1

/-- `raise`: what every fault of the machine does (R13, R204). The `exec` ends at once with the cause and the address
of the word being executed; no later micro-step is performed. Nothing is saved, no mode or mask changes and control
goes to no address inside the machine (R211), so a fault has no next state: it is the outcome itself, and the state
after it is unspecified (R205). There is no return from a fault (R212). -/
def raise (f : Fault) : Except Fault State := .error f

/-! ### LSU -/

/-- `MemRead(addr, 1)` at a given address of the executing word (R12, R52). -/
def State.memReadAt (s : State) (site addr : Word) : Except Fault Word :=
  if addr.toNat < s.cfg.memSize then .ok (s.mem.read addr.toNat) else .error (.boundsMem addr site)

/-- `MemRead(addr, 1)` inside a handler (R12, R52). -/
def State.memRead (s : State) (addr : Word) : Except Fault Word := s.memReadAt s.site addr

/-- `MemWrite(addr, 1, v)` inside a handler (R12, R53). -/
def State.memWrite (s : State) (addr v : Word) : Except Fault State :=
  if addr.toNat < s.cfg.memSize then .ok (s.setMem (s.mem.write addr.toNat v))
  else raise (.boundsMem addr s.site)

/-! ### RF -/

/-- `x[i]` (R11). -/
def State.reg (s : State) (i : RegIdx) : Word := s.regs[i.val]

/-- `x[i] <- v` (R11): all 32 bits; no register is hard-wired (R21). -/
def State.setReg (s : State) (i : RegIdx) (v : Word) : State := { s with regs := s.regs.set i.val v }

/-- `x[n] <- v` for a computed index (R11, R109): an index outside 0..15 is refused with `BoundsFault(reg, n)` and
nothing is written. -/
def State.writeRegAt (s : State) (n : Nat) (v : Word) : Except Fault State :=
  if h : n < 16 then .ok (s.setReg ⟨n, h⟩ v) else raise (.boundsReg n s.site)

/-- `sp`, the current content of register 14 (R11). -/
def State.sp (s : State) : Word := s.reg spReg

/-- `sp <- v`. -/
def State.setSp (s : State) (v : Word) : State := s.setReg spReg v

/-! ### The console -/

/-- `ConsoleInInt()` and `ConsoleInChar()` (R14, R147): one Word from the host. It is the next answer the state lists;
where none is listed it is a free value (log 8). -/
def State.consoleIn (s : State) : Word × State :=
  match s.console.answers with
  | v :: rest => (v, { s with console := { s.console with answers := rest } })
  | [] => (Config.consoleAnswer s.console.draws, { s with console := { s.console with draws := s.console.draws + 1 } })

/-- `ConsoleOutInt`, `ConsoleOutChar` and `ConsoleDiag` (R14, R147): one event handed to the host, after all the
earlier ones. -/
def State.consoleOut (s : State) (e : ConsoleEvent) : State :=
  { s with console := { s.console with events := s.console.events ++ [e] } }

/-! ### The end of a handler -/

/-- The handler reached its end: status 0, `run_state <- Running` (R13, R105). -/
def State.keepRunning (s : State) : State := { s with runState := .running }

/-- `halt(1)`: status 1, `run_state <- Halted` with its reason (R13, R206, R207). -/
def State.halt (s : State) (r : HaltReason) : State := { s with runState := .halted r }

/-- The outcome of a handler that does not halt: its end, or the fault it raised (R105). -/
def finish (r : Except Fault State) : Host.Outcome State Fault Refusal :=
  match r with
  | .ok s => .next s.keepRunning
  | .error f => .fault f

/-! ### Fetch -/

/-- Fetch and advance (R101, R102): `w <- MemRead(pc, 1)`, whose fault records `pc` itself, then `pc <- pc + 1`. -/
def State.fetch (s : State) : Except Fault (Word × State) :=
  match s.memReadAt s.pc s.pc with
  | .ok w => .ok (w, { s with pc := s.pc + 1 })
  | .error f => .error f

/-- Whether an `exec` may start, and why not (R100). -/
def State.startRefusal (s : State) : Option Refusal :=
  match s.runState with
  | .ready | .running => none
  | .unloaded => some .notLoaded
  | .halted r => some (.alreadyHalted r)
  | .faulted f => some (.alreadyFaulted f)

end Sys2Proof.Machine
end

