-- ==== Sys2Proof/Machine/Operands.lean ====
section
/-! DEFINITION. The operand forms and the ALU's data operations (spec/40_fetch_decode_dispatch.md R108):
register plus immediate, effective address, the 64-bit product, and the choice of a `syscall` service. -/

namespace Sys2Proof.Machine

/-- `x[reg] + value` modulo 2^32: `addi`, `push`, `mov`, the second operand of `mul` and the address of `loadr`
(R108). -/
def State.regPlus (s : State) (reg : RegIdx) (value : Word) : Word := s.reg reg + value

/-- The effective address of `loadr` (R66, R173): `x[out_reg] + value` modulo 2^32; only the 32-bit result is
bounds-checked (log 13). -/
def State.effectiveAddress (s : State) (outReg : RegIdx) (value : Word) : Word := s.regPlus outReg value

/-- `MUL64(a, b)` (R171): the product of the unsigned readings, or with `MUL_SIGNED` of the signed readings,
modulo 2^64. -/
def mul64 (signed : Bool) (a b : Word) : BitVec 64 :=
  if signed then BitVec.ofInt 64 (a.toInt * b.toInt) else BitVec.ofNat 64 (a.toNat * b.toNat)

/-- `p[31:0]`. -/
def lowWord (p : BitVec 64) : Word := p.extractLsb' 0 32

/-- `p[63:32]`. -/
def highWord (p : BitVec 64) : Word := p.extractLsb' 32 32

/-- The services of `syscall`: five, and the fallback (R140). -/
inductive Service where
  | exit | readInt | printInt | readChar | writeChar | unknown
  deriving DecidableEq, Repr

/-- The service a signed code selects, tried in the order of R140. -/
def serviceOf (c : SysCodes) (code : Int) : Service :=
  if code = c.exit then .exit
  else if code = c.readInt then .readInt
  else if code = c.printInt then .printInt
  else if code = c.readChar then .readChar
  else if code = c.writeChar then .writeChar
  else .unknown

end Sys2Proof.Machine
end

