-- ==== Sys2Proof/Machine/Arith.lean ====
section
/-! DEFINITION. The RI arithmetic instructions (spec/41_ri_arith.md R120 to R122). Every meaning runs with `pc`
already advanced past its own word (R25, R102). -/

namespace Sys2Proof.Machine

/-- `addi` (R120): `x[reg] <- x[reg] + value`. -/
def execAddi (reg : RegIdx) (value : Word) (s : State) : Host.Outcome State Fault Refusal :=
  finish (.ok (s.setReg reg (s.regPlus reg value)))

/-- `lc` (R121): `x[reg] <- value`. -/
def execLc (reg : RegIdx) (value : Word) (s : State) : Host.Outcome State Fault Refusal :=
  finish (.ok (s.setReg reg value))

end Sys2Proof.Machine
end

