-- ==== Sys2Proof/Machine/Flags.lean ====
section
/-! DEFINITION. The flags computations of the spec: `TEST(flags)` and the six jump conditions formed from it
(spec/40_fetch_decode_dispatch.md R108, spec/44_control.md R150, R160). No instruction writes `flags` (R28), so there is
nothing to compute for a write. -/

namespace Sys2Proof.Machine

/-- The sign half of `TEST(f)`: `s(f) < 0` (R108). -/
def testNeg (f : Word) : Bool := decide (f.toInt < 0)

/-- The zero half of `TEST(f)`: `f = 0` (R108). -/
def testZero (f : Word) : Bool := f == 0

/-- `flags != 0` (R152). -/
def condNe (f : Word) : Bool := !testZero f

/-- `flags = 0` (R153). -/
def condEq (f : Word) : Bool := testZero f

/-- `s(flags) <= 0` (R154). -/
def condLe (f : Word) : Bool := testNeg f || testZero f

/-- `s(flags) < 0` (R155). -/
def condLt (f : Word) : Bool := testNeg f

/-- `s(flags) >= 0` (R156). -/
def condGe (f : Word) : Bool := !testNeg f

/-- `s(flags) > 0` (R157). -/
def condGt (f : Word) : Bool := !testNeg f && !testZero f

end Sys2Proof.Machine
end

