-- ==== Sys2Proof/Machine/Stack.lean ====
section
/-! DEFINITION. The stack instructions (spec/42_stack.md R130 to R133): full-descending, no stack limit. The
micro-steps run in the written order on the live register 14 (R15; log 12). -/

namespace Sys2Proof.Machine

/-- `sp <- sp - 1; MemWrite(sp, 1, v)`, where `v` is computed after the decrement (R130, R150). -/
def State.pushWord (s : State) (v : State → Word) : Except Fault State :=
  let s₁ := s.setSp (s.sp - 1)
  s₁.memWrite s₁.sp (v s₁)

/-- The micro-steps of `pop` (R131). The register is written before the slot is cleared, so with `reg = 14` the
clearing write goes to the new stack pointer. -/
def State.popInto (s : State) (reg : RegIdx) (value : Word) : Except Fault State :=
  match s.memRead s.sp with
  | .error f => raise f
  | .ok t =>
    let s₁ := s.setReg reg (t + value)
    match s₁.memWrite s₁.sp 0 with
    | .error f => raise f
    | .ok s₂ => .ok (s₂.setSp (s₂.sp + 1))

/-- `push` (R130). -/
def execPush (reg : RegIdx) (value : Word) (s : State) : Host.Outcome State Fault Refusal :=
  finish (s.pushWord fun s₁ => s₁.regPlus reg value)

/-- `pop` (R131). -/
def execPop (reg : RegIdx) (value : Word) (s : State) : Host.Outcome State Fault Refusal :=
  finish (s.popInto reg value)

end Sys2Proof.Machine
end

