-- ==== Sys2Proof/Machine/Control.lean ====
section
/-! DEFINITION. Control transfer (spec/44_control.md R150 to R160). All eight instructions ignore their `reg` field
(R80); the target is absolute and is not checked before the next fetch. -/

namespace Sys2Proof.Machine

/-- `pc <- t`. -/
def State.setPc (s : State) (t : Word) : State := { s with pc := t }

/-- `JumpAndPush(value)` (R150): push the return address, which is the advanced `pc`, then `pc <- value`. -/
def State.jumpAndPush (s : State) (value : Word) : Except Fault State :=
  match s.pushWord fun s₁ => s₁.pc with
  | .error f => raise f
  | .ok s₂ => .ok (s₂.setPc value)

/-- A conditional jump (R150): `JumpAndPush(value)` where the relation holds, otherwise no effect at all. -/
def State.jumpIf (s : State) (taken : Bool) (value : Word) : Except Fault State :=
  if taken then s.jumpAndPush value else .ok s

/-- The micro-steps of `ret` (R158): the slot read is not cleared. -/
def State.returnVia (s : State) (value : Word) : Except Fault State :=
  match s.memRead s.sp with
  | .error f => raise f
  | .ok t =>
    let s₁ := s.setPc t
    .ok (s₁.setSp (s₁.sp + value + 1))

/-- `jmp` (R151). -/
def execJmp (_reg : RegIdx) (value : Word) (s : State) : Host.Outcome State Fault Refusal :=
  finish (s.jumpAndPush value)

/-- `jne` (R152). -/
def execJne (_reg : RegIdx) (value : Word) (s : State) : Host.Outcome State Fault Refusal :=
  finish (s.jumpIf (condNe s.flags) value)

/-- `jeq` (R153). -/
def execJeq (_reg : RegIdx) (value : Word) (s : State) : Host.Outcome State Fault Refusal :=
  finish (s.jumpIf (condEq s.flags) value)

/-- `jle` (R154). -/
def execJle (_reg : RegIdx) (value : Word) (s : State) : Host.Outcome State Fault Refusal :=
  finish (s.jumpIf (condLe s.flags) value)

/-- `jl` (R155). -/
def execJl (_reg : RegIdx) (value : Word) (s : State) : Host.Outcome State Fault Refusal :=
  finish (s.jumpIf (condLt s.flags) value)

/-- `jge` (R156). -/
def execJge (_reg : RegIdx) (value : Word) (s : State) : Host.Outcome State Fault Refusal :=
  finish (s.jumpIf (condGe s.flags) value)

/-- `jg` (R157). -/
def execJg (_reg : RegIdx) (value : Word) (s : State) : Host.Outcome State Fault Refusal :=
  finish (s.jumpIf (condGt s.flags) value)

/-- `ret` (R158). -/
def execRet (_reg : RegIdx) (value : Word) (s : State) : Host.Outcome State Fault Refusal :=
  finish (s.returnVia value)

end Sys2Proof.Machine
end

