-- ==== Sys2Proof/Machine/RegReg.lean ====
section
/-! DEFINITION. The RR instructions (spec/45_rr.md R170 to R174). Data flows from `out_reg` into `in_reg` (R174). -/

namespace Sys2Proof.Machine

/-- The micro-steps of `mul` (R172): both operands are read before either result is written; the high word goes to
the checked index `in_reg + 1`. -/
def State.multiply (s : State) (inReg outReg : RegIdx) (value : Word) : Except Fault State :=
  let p := mul64 s.cfg.mulSigned (s.reg inReg) (s.regPlus outReg value)
  (s.setReg inReg (lowWord p)).writeRegAt (inReg.val + 1) (highWord p)

/-- The micro-steps of `loadr` (R173). -/
def State.loadInto (s : State) (inReg outReg : RegIdx) (value : Word) : Except Fault State :=
  match s.memRead (s.effectiveAddress outReg value) with
  | .error f => raise f
  | .ok t => .ok (s.setReg inReg t)

/-- `mov` (R170): `x[in_reg] <- x[out_reg] + value`. -/
def execMov (inReg outReg : RegIdx) (value : Word) (s : State) : Host.Outcome State Fault Refusal :=
  finish (.ok (s.setReg inReg (s.regPlus outReg value)))

/-- `mul` (R172). -/
def execMul (inReg outReg : RegIdx) (value : Word) (s : State) : Host.Outcome State Fault Refusal :=
  finish (s.multiply inReg outReg value)

/-- `loadr` (R173). -/
def execLoadr (inReg outReg : RegIdx) (value : Word) (s : State) : Host.Outcome State Fault Refusal :=
  finish (s.loadInto inReg outReg value)

end Sys2Proof.Machine
end

