-- ==== Sys2Proof/Machine/Syscall.lean ====
section
/-! DEFINITION. The `syscall` instruction (spec/43_syscall.md R140 to R147): one handler, six arms. No arm faults. -/

namespace Sys2Proof.Machine

/-- `x[reg] <- ConsoleIn...()` (R142, R144). -/
def State.readConsoleInto (s : State) (reg : RegIdx) : State := s.consoleIn.2.setReg reg s.consoleIn.1

/-- `syscall` (R140): `c <- s(value)` selects the service (log 21). -/
def execSyscall (reg : RegIdx) (value : Word) (s : State) : Host.Outcome State Fault Refusal :=
  match serviceOf s.cfg.sys value.toInt with
  | .exit => .next (s.halt .exit)
  | .readInt => finish (.ok (s.readConsoleInto reg))
  | .printInt => finish (.ok (s.consoleOut (.outInt (s.reg reg))))
  | .readChar => finish (.ok (s.readConsoleInto reg))
  | .writeChar => finish (.ok (s.consoleOut (.outChar (s.reg reg))))
  | .unknown => .next ((s.consoleOut (.diag value)).halt (.unknownSyscall value.toInt))

end Sys2Proof.Machine
end

