-- ==== Sys2Proof/Machine/Dispatch.lean ====
section
/-! DEFINITION. SEQ's dispatch from a decoded instruction to its handler (spec/40_fetch_decode_dispatch.md R103,
R105, R111): one arm per instruction, one direct call of its meaning. -/

namespace Sys2Proof.Machine

def exec (i : Instr) (s : State) : Host.Outcome State Fault Refusal :=
  match i with
  | .addi reg value => Sys2Proof.Machine.execAddi reg value s
  | .lc reg value => Sys2Proof.Machine.execLc reg value s
  | .push reg value => Sys2Proof.Machine.execPush reg value s
  | .pop reg value => Sys2Proof.Machine.execPop reg value s
  | .syscall reg value => Sys2Proof.Machine.execSyscall reg value s
  | .jmp reg value => Sys2Proof.Machine.execJmp reg value s
  | .jne reg value => Sys2Proof.Machine.execJne reg value s
  | .jeq reg value => Sys2Proof.Machine.execJeq reg value s
  | .jle reg value => Sys2Proof.Machine.execJle reg value s
  | .jl reg value => Sys2Proof.Machine.execJl reg value s
  | .jge reg value => Sys2Proof.Machine.execJge reg value s
  | .jg reg value => Sys2Proof.Machine.execJg reg value s
  | .ret reg value => Sys2Proof.Machine.execRet reg value s
  | .mov inReg outReg value => Sys2Proof.Machine.execMov inReg outReg value s
  | .mul inReg outReg value => Sys2Proof.Machine.execMul inReg outReg value s
  | .loadr inReg outReg value => Sys2Proof.Machine.execLoadr inReg outReg value s

end Sys2Proof.Machine
end

