-- ==== Sys2Proof/Machine/Step.lean ====
section
/-! DEFINITION. The step: one `exec` transaction (spec/40_fetch_decode_dispatch.md R100 to R106), and the state in
which a given word is the next one the step fetches. -/

namespace Sys2Proof.Machine

/-- The whole step (R106): refused outside Ready and Running (R100); fetch and advance (R101, R102); dispatch
(R103), whose fault records the address of the offending word; the handler (R105). -/
def step (s : State) : Host.Outcome State Fault Refusal :=
  match s.startRefusal with
  | some r => .refused r
  | none =>
    match s.fetch with
    | .error f => .fault f
    | .ok (w, s₁) =>
      match decode s₁.cfg.opc w with
      | .illegal op => .fault (.dispatch op s₁.site)
      | .instr i => exec i s₁

/-- The state in which the next step fetches and runs the word whose bits are `w` (`nbits` of them given, the rest 0):
the word stands at `pc`, and `run_state` is Ready where no `exec` could start (log 10). It stands for the host's
`load_program` where `s` is Unloaded. A `pc` outside memory, at which nothing can be stored, is set to 0. -/
def State.withFetchWord (s : State) (nbits w : Nat) : State :=
  let pc := if s.pc.toNat < s.cfg.memSize then s.pc else 0
  { s with
    pc := pc
    mem := s.mem.write pc.toNat (BitVec.ofNat 32 (w % 2 ^ nbits))
    runState := if s.startRefusal.isNone then s.runState else .ready }

end Sys2Proof.Machine
end

