-- ==== Sys2Proof/Machine/Transactions.lean ====
section
/-! DEFINITION. The host's transactions (spec/40_fetch_decode_dispatch.md R113, R114): construction (R230),
`load_program` (spec/70_reset_and_hazards.md R231, R232), `set_flags` (spec/10_state.md R29), and `exec` as the host sees
it, with its outcome and the state machine's transitions (R112, R114, R208). -/

namespace Sys2Proof.Machine

/-- Construction (R230): refused for a configuration R8 does not admit (U12; log 18). -/
def construct? (c : Config) : Option State := if c.Wf then some (State.construct c) else none

/-- Why `load_program` refuses an image (R232; log 23). -/
inductive ImageRefusal where
  /-- no element 0 -/
  | empty
  /-- more memory words than memory -/
  | tooLong
  deriving DecidableEq, Repr

/-- The words `w_0, w_1, ...` at consecutive addresses from `a`, in canonical form. -/
def Memory.ofWords (a : Nat) : List Word → Memory
  | [] => []
  | w :: ws => if w = 0 then Memory.ofWords (a + 1) ws else (a, w) :: Memory.ofWords (a + 1) ws

/-- The state `load_program` leaves for an accepted image (R231, R37). The host's console keeps its answers; the
record of events is per run and starts empty (log 9). -/
def State.loaded (s : State) (entry : Word) (ws : List Word) : State :=
  { State.construct s.cfg with
    pc := entry
    mem := Memory.ofWords 0 ws
    runState := .ready
    console := { s.console with events := [] } }

/-- `load_program(image)` (R231, R232): element 0 is the entry point, the others are the words of addresses 0, 1, ...
(R88). It may be called in any `run_state`; a refused image changes nothing. -/
def State.loadProgram (s : State) (image : List Word) : Except ImageRefusal State :=
  match image with
  | [] => .error .empty
  | entry :: ws => if ws.length ≤ s.cfg.memSize then .ok (s.loaded entry ws) else .error .tooLong

/-- `set_flags(v)` (R29): in Ready and Running it writes `flags` and nothing else; otherwise it is refused. -/
def State.setFlags (s : State) (v : Word) : Except Refusal State :=
  match s.startRefusal with
  | some r => .error r
  | none => .ok { s with flags := v }

/-- What an `exec` reports to the host (R13, R208). -/
inductive ExecReport where
  /-- status 0 -/
  | continues
  /-- status 1 -/
  | halted (reason : HaltReason)
  | faulted (cause : Fault)
  | refused (why : Refusal)
  deriving DecidableEq, Repr

/-- The outcome numbers of R208; a refused `exec` has none. -/
def ExecReport.number : ExecReport → Option Nat
  | .continues => some 0
  | .halted _ => some 1
  | .faulted (.dispatch _ _) => some 2
  | .faulted (.boundsMem _ _) => some 3
  | .faulted (.boundsReg _ _) => some 4
  | .refused _ => none

end Sys2Proof.Machine

namespace Sys2Proof

/-- FREE VALUE (log 11): registers, `pc`, `flags`, `frame` and memory of a Faulted Processor, which R205 leaves
unspecified. Nothing can evaluate this constant. -/
opaque Config.stateAfterFault : Machine.State → Machine.State

end Sys2Proof

namespace Sys2Proof.Machine

/-- The Processor after a fault (R204, R205): Faulted with its cause, the configuration and the console's record kept,
and all else unspecified. -/
def State.faultedWith (s : State) (f : Fault) : State :=
  { Config.stateAfterFault s with cfg := s.cfg, console := s.console, runState := .faulted f }

/-- One `exec` as the host sees it (R106, R114): the state after it and the report. -/
def State.execTransaction (s : State) : State × ExecReport :=
  match step s with
  | .next t =>
    match t.runState with
    | .halted r => (t, .halted r)
    | _ => (t, .continues)
  | .fault f => (s.faultedWith f, .faulted f)
  | .refused r => (s, .refused r)

end Sys2Proof.Machine
end

