-- ==== Sys2Proof/Safety.lean ====
section
/-! DEFINITION. What counts as a good state and a good end of a run, and the words the statements are written in:
what a transition leaves unchanged, which words an instruction is decoded from, and runs of several steps. -/

namespace Sys2Proof.Machine

/-! ### Good states and good ends -/

/-- The invariant of the machine: the configuration meets R8's constraints; memory is in canonical form and lists
only addresses that exist (R33, R50); `frame` stands at "top of memory" (R30). -/
abbrev State.Inv (s : State) : Prop :=
  s.cfg.Wf ∧ s.mem.wf ∧ (∀ c ∈ s.mem, c.1 < s.cfg.memSize) ∧ s.frame = s.cfg.stackTop

/-- An `exec` may start: Ready or Running (R100). -/
abbrev State.Startable (s : State) : Prop := s.runState = .ready ∨ s.runState = .running

/-- The program ended normally: the exit service, not an unknown code and not a fault (R207). -/
abbrev State.EndedNormally (s : State) : Prop := s.runState = .halted .exit

/-! ### What a transition leaves unchanged -/

/-- Every register outside `except` holds what it held. -/
def KeepsRegs (except : List RegIdx) (s t : State) : Prop := ∀ r, r ∉ except → t.reg r = s.reg r

/-- Every word of memory outside `except` reads as before. -/
def KeepsMem (except : List Nat) (s t : State) : Prop := ∀ a, a ∉ except → t.mem.read a = s.mem.read a

/-- `flags`, `frame` and the configuration are unchanged: the registers no instruction writes (R28, R30, R34). -/
def KeepsControl (s t : State) : Prop := t.flags = s.flags ∧ t.frame = s.frame ∧ t.cfg = s.cfg

/-- All that a plain instruction leaves alone: registers outside `regs`, memory outside `words`, `flags`, `frame`, the
configuration and the console; and it ends with status 0 (R105). -/
def Keeps (regs : List RegIdx) (words : List Nat) (s t : State) : Prop :=
  KeepsRegs regs s t ∧ KeepsMem words s t ∧ KeepsControl s t ∧ t.console = s.console ∧ t.runState = .running

/-- What a taken jump does (R150): the decremented stack pointer, the return address in the word it points at, `pc`
at the target, and nothing else. -/
def JumpsAndPushes (value : Word) (s t : State) : Prop :=
  t.reg spReg = s.reg spReg - 1 ∧ t.mem.read (s.reg spReg - 1).toNat = s.pc ∧ t.pc = value ∧
    Keeps [spReg] [(s.reg spReg - 1).toNat] s t

/-- A conditional jump on the relation `rel` between the signed reading of `flags` and zero (R150). -/
def JumpsExactlyWhen (rel : Int → Prop) (mk : RegIdx → Word → Instr) : Prop :=
  ∀ (reg : RegIdx) (value : Word) (s : State),
    (¬ rel s.flags.toInt → ∃ t, exec (mk reg value) s = .next t ∧ t.pc = s.pc ∧ Keeps [] [] s t) ∧
    (rel s.flags.toInt → (s.reg spReg - 1).toNat < s.cfg.memSize →
      ∃ t, exec (mk reg value) s = .next t ∧ JumpsAndPushes value s t) ∧
    (rel s.flags.toInt → s.cfg.memSize ≤ (s.reg spReg - 1).toNat →
      exec (mk reg value) s = .fault (.boundsMem (s.reg spReg - 1) (s.pc - 1)))

/-- The address of the word an instruction stores to, if it stores (R65): the decremented stack pointer for `push`
and the jumps, and for `pop` the stack pointer its clearing write sees (with `reg = 14` the new one; log 12). A
conditional jump stores only when taken. -/
def storedAt (i : Instr) (s : State) : Option Nat :=
  match i with
  | .push _ _ | .jmp _ _ => some (s.sp - 1).toNat
  | .pop reg value => some (if reg = spReg then s.mem.read s.sp.toNat + value else s.sp).toNat
  | .jne _ _ => if condNe s.flags then some (s.sp - 1).toNat else none
  | .jeq _ _ => if condEq s.flags then some (s.sp - 1).toNat else none
  | .jle _ _ => if condLe s.flags then some (s.sp - 1).toNat else none
  | .jl _ _ => if condLt s.flags then some (s.sp - 1).toNat else none
  | .jge _ _ => if condGe s.flags then some (s.sp - 1).toNat else none
  | .jg _ _ => if condGt s.flags then some (s.sp - 1).toNat else none
  | .addi _ _ | .lc _ _ | .syscall _ _ | .ret _ _ | .mov _ _ _ | .mul _ _ _ | .loadr _ _ _ => none

/-- The word an instruction stores where `storedAt` gives an address: the sum for `push` (with `reg = 14` of the
decremented stack pointer; log 12), 0 for `pop`, the return address for a jump (R130, R131, R150). -/
def storedWord (i : Instr) (s : State) : Option Word :=
  match i with
  | .push reg value => some ((if reg = spReg then s.sp - 1 else s.reg reg) + value)
  | .pop _ _ => some 0
  | .jmp _ _ | .jne _ _ | .jeq _ _ | .jle _ _ | .jl _ _ | .jge _ _ | .jg _ _ => some s.pc
  | .addi _ _ | .lc _ _ | .syscall _ _ | .ret _ _ | .mov _ _ _ | .mul _ _ _ | .loadr _ _ _ => none

/-- The instruction is a jump that is taken at this value of `flags`: `jmp`, or a conditional jump whose relation holds
between the signed reading of `flags` and zero (R150 to R157). -/
def JumpTaken (i : Instr) (flags : Word) : Prop :=
  match i with
  | .jmp _ _ => True
  | .jne _ _ => flags.toInt ≠ 0
  | .jeq _ _ => flags.toInt = 0
  | .jle _ _ => flags.toInt ≤ 0
  | .jl _ _ => flags.toInt < 0
  | .jge _ _ => flags.toInt ≥ 0
  | .jg _ _ => flags.toInt > 0
  | .addi _ _ | .lc _ _ | .push _ _ | .pop _ _ | .syscall _ _ | .ret _ _ | .mov _ _ _ | .mul _ _ _ | .loadr _ _ _ => False

/-- The six mnemonics that read `flags` (R28). -/
def conditionalJumps : List Mnemonic := [.jne, .jeq, .jle, .jl, .jge, .jg]

/-! ### Encodings -/

/-- The opcode of mnemonic `m` is `n` by default, and under every injective `OPC` a word whose opcode byte is `m`'s
decodes to `mk` of the register w[23:20] and of w[19:0] sign-extended from bit 19 (R73, R84, R104). -/
def DecodesRI (m : Mnemonic) (n : BitVec 8) (mk : RegIdx → Word → Instr) : Prop :=
  Opcodes.default.code m = n ∧
    ∀ (o : Opcodes) (w : Word), o.Injective → w.extractLsb' 24 8 = o.code m →
      decode o w = .instr (mk (w.extractLsb' 20 4).toFin ((w.extractLsb' 0 20).signExtend 32))

/-- The same for an RM mnemonic, w[19:0] zero-extended (R74, R84, R104). -/
def DecodesRM (m : Mnemonic) (n : BitVec 8) (mk : RegIdx → Word → Instr) : Prop :=
  Opcodes.default.code m = n ∧
    ∀ (o : Opcodes) (w : Word), o.Injective → w.extractLsb' 24 8 = o.code m →
      decode o w = .instr (mk (w.extractLsb' 20 4).toFin ((w.extractLsb' 0 20).setWidth 32))

/-- The same for an RR mnemonic: destination w[23:20], source w[19:16], w[15:0] sign-extended from bit 15
(R75, R84, R104). -/
def DecodesRR (m : Mnemonic) (n : BitVec 8) (mk : RegIdx → RegIdx → Word → Instr) : Prop :=
  Opcodes.default.code m = n ∧
    ∀ (o : Opcodes) (w : Word), o.Injective → w.extractLsb' 24 8 = o.code m →
      decode o w = .instr (mk (w.extractLsb' 20 4).toFin (w.extractLsb' 16 4).toFin
        ((w.extractLsb' 0 16).signExtend 32))

/-! ### Several steps -/

/-- `f` applied to the next state of an outcome. -/
def mapNext (f : State → State) : Host.Outcome State Fault Refusal → Host.Outcome State Fault Refusal
  | .next s => .next (f s)
  | .fault r => .fault r
  | .refused r => .refused r

/-- The handlers of a list of instructions one after another, stopping at the first fault or refusal. -/
def execList : List Instr → State → Host.Outcome State Fault Refusal
  | [], s => .next s
  | i :: is, s =>
    match exec i s with
    | .next t => execList is t
    | .fault f => .fault f
    | .refused r => .refused r

/-- `t` is reached from `s` by some number of steps, the host making no other transaction between them. -/
inductive RunsTo (s : State) : State → Prop where
  | here : RunsTo s s
  | after {t u : State} : RunsTo s t → step t = .next u → RunsTo s u

end Sys2Proof.Machine
end

