-- ==== Sys2Proof/Certificates/Slice0/Obligations.lean ====
section
/-! DEFINITION. The statements for the provers, from the numbered rules of spec/. Unless a statement says otherwise it
holds for every configuration the state carries, so for every `OPC`, `MEM_SIZE`, `STACK_TOP`, `SYS_*` and `MUL_SIGNED`.
A handler runs with `pc` already advanced (R102), so `s.pc - 1` is the address of the executing word. -/

open Sys2Proof Sys2Proof.Machine

/-! ### The step -/

/-- R102, R104, R106: where the word at `pc` decodes to `i`, the step is the handler of `i` on the state whose `pc`
has been advanced past that one word, and the advance does not wrap (R26). -/
def Obligations.StepRunsDecodedInstruction : Prop :=
  ∀ (s : State) (i : Instr), s.Startable → s.cfg.memSize ≤ 2 ^ 32 - 1 → s.pc.toNat < s.cfg.memSize →
    decode s.cfg.opc (s.mem.read s.pc.toNat) = .instr i →
      step s = exec i { s with pc := s.pc + 1 } ∧ (s.pc + 1).toNat = s.pc.toNat + 1

/-- R101: the fetch reads `M[pc]` and advances, and out of bounds it faults with `pc` not incremented: the fault
records `pc` itself as the executing address. -/
def Obligations.FetchIsBoundsChecked : Prop :=
  ∀ s : State,
    (s.pc.toNat < s.cfg.memSize → s.fetch = .ok (s.mem.read s.pc.toNat, { s with pc := s.pc + 1 })) ∧
    (s.cfg.memSize ≤ s.pc.toNat → s.Startable → step s = .fault (.boundsMem s.pc s.pc))

/-- R103: dispatch by `w[31:24]` alone: the mnemonic bound to it is selected, and an opcode no mnemonic has is
illegal. -/
def Obligations.DispatchSelectsByOpcodeAlone : Prop :=
  ∀ (o : Opcodes) (w : Word), o.Injective →
    (∀ m, o.code m = w.extractLsb' 24 8 → ∃ i, decode o w = .instr i ∧ i.mnemonic = m) ∧
    ((∀ m, o.code m ≠ w.extractLsb' 24 8) → decode o w = .illegal (w.extractLsb' 24 8)) ∧
    (∀ s : State, s.Startable → s.pc.toNat < s.cfg.memSize → s.cfg.opc = o → s.mem.read s.pc.toNat = w →
      (∀ m, o.code m ≠ w.extractLsb' 24 8) → step s = .fault (.dispatch (w.extractLsb' 24 8) s.pc))

/-- From R201: `DispatchFault(op)` is raised by the dispatch step and by nothing else, for exactly the words whose
opcode byte `OPC` does not assign; it records the opcode byte and the address of the word. -/
def Obligations.DispatchFaultRaisedExactlyByDispatch : Prop :=
  ∀ (s : State) (op : BitVec 8) (site : Word),
    step s = .fault (.dispatch op site) ↔
      s.Startable ∧ s.pc.toNat < s.cfg.memSize ∧ op = (s.mem.read s.pc.toNat).extractLsb' 24 8 ∧
        (∀ m, s.cfg.opc.code m ≠ op) ∧ site = s.pc

/-- R85: every opcode `OPC` does not assign faults when fetched; with the default `OPC` the assigned ones are these
sixteen, and a fetched all-zero word faults. -/
def Obligations.UnassignedOpcodesAreIllegal : Prop :=
  (∀ (s : State) (op : BitVec 8), s.Startable → s.pc.toNat < s.cfg.memSize →
    op = (s.mem.read s.pc.toNat).extractLsb' 24 8 → (∀ m, s.cfg.opc.code m ≠ op) →
      step s = .fault (.dispatch op s.pc)) ∧
  (∀ w : Word, (∃ i, decode Opcodes.default w = .instr i) ↔
    (w.extractLsb' 24 8).toNat ∈ [1, 3, 6, 12, 24, 38, 39, 42, 46, 47, 48, 49, 50, 51, 52, 68]) ∧
  (∀ s : State, s.Startable → s.pc.toNat < s.cfg.memSize → s.cfg.opc = Opcodes.default →
    s.mem.read s.pc.toNat = 0 → step s = .fault (.dispatch 0 s.pc))

/-- From R100, which is the spec's own decision D12 (log 19): an `exec` is refused exactly in Halted, Faulted and
Unloaded; it then changes no state, and in Halted and Faulted it repeats the outcome that ended the run. -/
def Obligations.ExecRefusedExactlyOutsideReadyAndRunning : Prop :=
  (∀ s : State, (∃ r, step s = .refused r) ↔ ¬ s.Startable) ∧
  (∀ s : State, s.runState = .unloaded → s.execTransaction = (s, .refused .notLoaded)) ∧
  (∀ (s : State) (r : HaltReason), s.runState = .halted r → s.execTransaction = (s, .refused (.alreadyHalted r))) ∧
  (∀ (s : State) (f : Fault), s.runState = .faulted f → s.execTransaction = (s, .refused (.alreadyFaulted f)))

/-- From R114: the transitions of `run_state` under the host's transactions; the refusals are the spec's decisions D12
and D17 (log 19), and the report is the model's type (log 24). -/
def Obligations.RunStateTransitionsAreComplete : Prop :=
  (∀ (s t : State) (image : List Word), s.loadProgram image = .ok t → t.runState = .ready) ∧
  (∀ (s : State), s.Startable →
    (s.execTransaction.2 = .continues ∧ s.execTransaction.1.runState = .running) ∨
    (∃ reg value r, decode s.cfg.opc (s.mem.read s.pc.toNat) = .instr (.syscall reg value) ∧
      (value.toInt = s.cfg.sys.exit ∨ value.toInt ∉ s.cfg.sys.toList) ∧
      s.execTransaction.2 = .halted r ∧ s.execTransaction.1.runState = .halted r) ∨
    (∃ f, s.execTransaction.2 = .faulted f ∧ s.execTransaction.1.runState = .faulted f)) ∧
  (∀ (s t : State) (v : Word), s.setFlags v = .ok t → s.Startable ∧ t.runState = s.runState) ∧
  (∀ (s : State) (v : Word), ¬ s.Startable →
    s.execTransaction.1 = s ∧ (∃ r, s.execTransaction.2 = .refused r) ∧ ∃ r, s.setFlags v = .error r)

/-- From R204: a fault ends the `exec` with `run_state` Faulted and produces no console event, the record of earlier
events being kept (R205, log 11); every later `exec` and `set_flags` is refused without a state change and repeats the
cause (R100, the spec's decision D12; log 19), and only `load_program` leaves the state, which takes any image that
fits, whatever its entry (R232, the spec's decision D13; log 23). -/
def Obligations.FaultIsTerminal : Prop :=
  ∀ (s : State) (f : Fault), step s = .fault f →
    ∃ t, s.execTransaction = (t, .faulted f) ∧ t.runState = .faulted f ∧ t.console = s.console ∧
      t.execTransaction = (t, .refused (.alreadyFaulted f)) ∧
      (∀ v, t.setFlags v = .error (.alreadyFaulted f)) ∧
      (∀ (entry : Word) (ws : List Word), ws.length ≤ s.cfg.memSize →
        ∃ u, t.loadProgram (entry :: ws) = .ok u ∧ u.runState = .ready)

/-! ### Encodings -/

/-- R79: for every format, decoding the encoding of valid fields gives back the fields, and re-encoding the fields of
any word gives back the word. -/
def Obligations.FormatsRoundTrip : Prop :=
  (∀ f : RegFields, inRangeRI f.value → decodeRI (encodeRI f) = f) ∧
  (∀ f : RegFields, inRangeRM f.value → decodeRM (encodeRM f) = f) ∧
  (∀ f : RegRegFields, inRangeRR f.value → decodeRR (encodeRR f) = f) ∧
  (∀ w : Word, encodeRI (decodeRI w) = w ∧ encodeRM (decodeRM w) = w ∧ encodeRR (decodeRR w) = w)

/-- R76: RI and RR values are the field minus 2^20 or 2^16 when the field's top bit is 1 and the field otherwise; RM
values are the field and never negative. -/
def Obligations.SignExtensionLaw : Prop :=
  ∀ w : Word,
    (decodeRI w).value.toInt =
      (if w.getLsbD 19 then ((w.extractLsb' 0 20).toNat : Int) - 2 ^ 20 else ((w.extractLsb' 0 20).toNat : Int)) ∧
    (decodeRR w).value.toInt =
      (if w.getLsbD 15 then ((w.extractLsb' 0 16).toNat : Int) - 2 ^ 16 else ((w.extractLsb' 0 16).toNat : Int)) ∧
    (decodeRM w).value.toNat = (w.extractLsb' 0 20).toNat ∧ 0 ≤ (decodeRM w).value.toInt

/-- R78: the encoder as a sum of shifted fields; a negative value is stored modulo 2^20 or 2^16. -/
def Obligations.EncoderIsTheShiftedSum : Prop :=
  (∀ f : RegFields, inRangeRI f.value →
    ((encodeRI f).toNat : Int) = f.op.toNat * 2 ^ 24 + f.reg.val * 2 ^ 20 + f.value.toInt % 2 ^ 20) ∧
  (∀ f : RegFields, inRangeRM f.value →
    (encodeRM f).toNat = f.op.toNat * 2 ^ 24 + f.reg.val * 2 ^ 20 + f.value.toNat) ∧
  (∀ f : RegRegFields, inRangeRR f.value →
    ((encodeRR f).toNat : Int) =
      f.op.toNat * 2 ^ 24 + f.inReg.val * 2 ^ 20 + f.outReg.val * 2 ^ 16 + f.value.toInt % 2 ^ 16)

/-- R79 with R84, for whole instructions: under every injective `OPC` the decoder gives back every well-formed
instruction from its word. -/
def Obligations.DecodeOfEncode : Prop :=
  ∀ (o : Opcodes) (i : Instr), o.Injective → i.wf → decode o (encode o i) = .instr i

/-- R79, the other direction: whatever the decoder reads is well-formed and encodes to the identical word. -/
def Obligations.EncodeOfDecode : Prop :=
  ∀ (o : Opcodes) (w : Word) (i : Instr), decode o w = .instr i → encode o i = w ∧ i.wf

/-- The worked encodings of R92, which the spec derives from R78 and R84, under the default `OPC`. -/
def Obligations.WorkedEncodings : Prop :=
  let e := encode Opcodes.default
  let d := decode Opcodes.default
  e (.lc 0 5) = 0x0C000005 ∧ e (.lc 7 (-524288)) = 0x0C780000 ∧ e (.lc 7 524287) = 0x0C77FFFF ∧
  e (.addi 3 (-1)) = 0x033FFFFF ∧ e (.push 0 0) = 0x26000000 ∧ e (.pop 1 0) = 0x27100000 ∧
  e (.syscall 0 102) = 0x01000066 ∧ e (.syscall 0 0) = 0x01000000 ∧ e (.jmp 0 5) = 0x2E000005 ∧
  e (.jmp 15 1048575) = 0x2EFFFFFF ∧ e (.ret 0 1) = 0x2A000001 ∧ e (.mov 1 2 (-1)) = 0x1812FFFF ∧
  e (.mul 2 3 0) = 0x06230000 ∧ e (.loadr 2 14 1) = 0x442E0001 ∧
  d 0x1812FFFF = .instr (.mov 1 2 0xFFFFFFFF) ∧ decodeRR 0x1812FFFF = ⟨0x18, 1, 2, 0xFFFFFFFF⟩ ∧
  d 0x0C780000 = .instr (.lc 7 0xFFF80000) ∧ decodeRI 0x0C780000 = ⟨0x0C, 7, 0xFFF80000⟩ ∧
  d 0x2EFFFFFF = .instr (.jmp 15 0x000FFFFF) ∧ decodeRM 0x2EFFFFFF = ⟨0x2E, 15, 0x000FFFFF⟩

/-- From R80, which the spec marks as derived: the `reg` field of the eight RM instructions, and of `syscall` when the
service is exit or unknown, has no effect. -/
def Obligations.IgnoredFieldsHaveNoEffect : Prop :=
  ∀ (r r' : RegIdx) (v : Word) (s : State),
    exec (.jmp r v) s = exec (.jmp r' v) s ∧ exec (.jne r v) s = exec (.jne r' v) s ∧
    exec (.jeq r v) s = exec (.jeq r' v) s ∧ exec (.jle r v) s = exec (.jle r' v) s ∧
    exec (.jl r v) s = exec (.jl r' v) s ∧ exec (.jge r v) s = exec (.jge r' v) s ∧
    exec (.jg r v) s = exec (.jg r' v) s ∧ exec (.ret r v) s = exec (.ret r' v) s ∧
    (v.toInt = s.cfg.sys.exit ∨ v.toInt ∉ s.cfg.sys.toList → exec (.syscall r v) s = exec (.syscall r' v) s)

/-! ### Memory and registers -/

/-- R52, R53: a read in bounds returns `M[addr]`, a write in bounds makes `M[addr]` the Word and leaves every other
word and all other state alone, and an access out of bounds raises `BoundsFault(mem, addr)`. -/
def Obligations.MemoryAccessIsBoundsChecked : Prop :=
  ∀ (s : State) (a v : Word),
    (a.toNat < s.cfg.memSize → s.memRead a = .ok (s.mem.read a.toNat)) ∧
    (s.cfg.memSize ≤ a.toNat →
      s.memRead a = .error (.boundsMem a (s.pc - 1)) ∧ s.memWrite a v = .error (.boundsMem a (s.pc - 1))) ∧
    (a.toNat < s.cfg.memSize → ∃ t, s.memWrite a v = .ok t ∧ t.mem.read a.toNat = v ∧ KeepsMem [a.toNat] s t ∧
      t = { s with mem := t.mem })

/-- From R109, which the spec marks as derived: a register write is read back, leaves every other register and all
other state alone, and an index outside 0..15 is refused with `BoundsFault(reg, n)`. -/
def Obligations.RegisterWriteIsChecked : Prop :=
  ∀ (s : State) (n : Nat) (v : Word),
    (∀ h : n < 16, ∃ t, s.writeRegAt n v = .ok t ∧ t.reg ⟨n, h⟩ = v ∧ KeepsRegs [⟨n, h⟩] s t ∧
      t = { s with regs := t.regs }) ∧
    (16 ≤ n → s.writeRegAt n v = .error (.boundsReg n (s.pc - 1)))

/-! ### RI arithmetic -/

/-- R120: `addi`. -/
def Obligations.AddiAddsImmediate : Prop :=
  (∀ (reg : RegIdx) (value : Word) (s : State), ∃ t, exec (.addi reg value) s = .next t ∧
    t.reg reg = s.reg reg + value ∧ t.pc = s.pc ∧ Keeps [reg] [] s t) ∧
  DecodesRI .addi 3 .addi

/-- R121: `lc`. -/
def Obligations.LcLoadsConstant : Prop :=
  (∀ (reg : RegIdx) (value : Word) (s : State), ∃ t, exec (.lc reg value) s = .next t ∧
    t.reg reg = value ∧ t.pc = s.pc ∧ Keeps [reg] [] s t) ∧
  DecodesRI .lc 12 .lc

/-! ### Stack -/

/-- From R130: `push`. That the value read for `reg = 14` is the already decremented stack pointer is the spec's own
reading of the source's row (R130 (d), R15, decision D9, U4) and the model's choice of log 12, unsafe for that form.
-/
def Obligations.PushStoresBelowStackPointer : Prop :=
  (∀ (reg : RegIdx) (value : Word) (s : State),
    ((s.reg spReg - 1).toNat < s.cfg.memSize → ∃ t, exec (.push reg value) s = .next t ∧
      t.reg spReg = s.reg spReg - 1 ∧
      t.mem.read (s.reg spReg - 1).toNat = (if reg = spReg then s.reg spReg - 1 else s.reg reg) + value ∧
      t.pc = s.pc ∧ Keeps [spReg] [(s.reg spReg - 1).toNat] s t) ∧
    (s.cfg.memSize ≤ (s.reg spReg - 1).toNat →
      exec (.push reg value) s = .fault (.boundsMem (s.reg spReg - 1) (s.pc - 1)))) ∧
  DecodesRI .push 38 .push

/-- From R131: `pop`. That with `reg = 14` the clearing write, and its fault, go to the new stack pointer is the
spec's own reading of the source's row (R131 (e), decision D9, U4) and the model's choice of log 12, unsafe for that
form. -/
def Obligations.PopLoadsAndClearsSlot : Prop :=
  (∀ (reg : RegIdx) (value : Word) (s : State),
    ((s.reg spReg).toNat < s.cfg.memSize → reg ≠ spReg → ∃ t, exec (.pop reg value) s = .next t ∧
      t.reg reg = s.mem.read (s.reg spReg).toNat + value ∧ t.reg spReg = s.reg spReg + 1 ∧
      t.mem.read (s.reg spReg).toNat = 0 ∧ t.pc = s.pc ∧ Keeps [reg, spReg] [(s.reg spReg).toNat] s t) ∧
    ((s.reg spReg).toNat < s.cfg.memSize → reg = spReg →
      (s.mem.read (s.reg spReg).toNat + value).toNat < s.cfg.memSize → ∃ t, exec (.pop reg value) s = .next t ∧
        t.reg spReg = s.mem.read (s.reg spReg).toNat + value + 1 ∧
        t.mem.read (s.mem.read (s.reg spReg).toNat + value).toNat = 0 ∧ t.pc = s.pc ∧
        Keeps [spReg] [(s.mem.read (s.reg spReg).toNat + value).toNat] s t) ∧
    (s.cfg.memSize ≤ (s.reg spReg).toNat →
      exec (.pop reg value) s = .fault (.boundsMem (s.reg spReg) (s.pc - 1))) ∧
    ((s.reg spReg).toNat < s.cfg.memSize → reg = spReg →
      s.cfg.memSize ≤ (s.mem.read (s.reg spReg).toNat + value).toNat →
        exec (.pop reg value) s = .fault (.boundsMem (s.mem.read (s.reg spReg).toNat + value) (s.pc - 1)))) ∧
  DecodesRI .pop 39 .pop

/-- From R132, which the spec derives from R130 and R131: the stack discipline, for one `push` and one later `pop`
with anything between that leaves the slot alone, and for n pushes followed by n pops into distinct registers: the
values come back in reverse order and all n slots end at 0. As in R132, register 14 is neither pushed nor popped. -/
def Obligations.StackDiscipline : Prop :=
  (∀ (a b : RegIdx) (va vb : Word) (s : State), a ≠ spReg → b ≠ spReg → s.cfg.memSize ≤ 2 ^ 32 - 1 →
    1 ≤ (s.reg spReg).toNat → (s.reg spReg).toNat ≤ s.cfg.memSize →
    ∃ t, exec (.push a va) s = .next t ∧
      ∀ u : State, u.cfg = s.cfg → u.reg spReg = s.reg spReg - 1 →
        u.mem.read (s.reg spReg - 1).toNat = t.mem.read (s.reg spReg - 1).toNat →
        ∃ v, exec (.pop b vb) u = .next v ∧ v.reg spReg = s.reg spReg ∧ v.reg b = s.reg a + va + vb ∧
          v.mem.read (s.reg spReg - 1).toNat = 0) ∧
  (∀ (ps qs : List (RegIdx × Word)) (s : State), ps.length = qs.length →
    (∀ p ∈ ps, p.1 ≠ spReg) → (∀ q ∈ qs, q.1 ≠ spReg) → (qs.map Prod.fst).Nodup →
    s.cfg.memSize ≤ 2 ^ 32 - 1 → ps.length ≤ (s.reg spReg).toNat → (s.reg spReg).toNat ≤ s.cfg.memSize →
    ∃ t, execList (ps.map (fun p => .push p.1 p.2) ++ qs.map (fun q => .pop q.1 q.2)) s = .next t ∧
      t.reg spReg = s.reg spReg ∧
      (∀ pq ∈ ps.reverse.zip qs, t.reg pq.2.1 = s.reg pq.1.1 + pq.1.2 + pq.2.2) ∧
      (∀ k, k < ps.length → t.mem.read ((s.reg spReg).toNat - 1 - k) = 0))

/-! ### syscall -/

/-- From R140, whose service codes and comparison are the spec's decisions D14 and D16 (log 21): every `syscall`
completes: no arm faults, `pc` is left at the next word, memory, `flags` and `frame` are untouched, only a read
service writes a register, and the status is 1 exactly for exit and for an unknown code. That the two read services
always complete is the model's choice of log 8: a host that never answers (R147, U17) is not shown, which is unsafe
for a claim that an `exec` always ends. -/
def Obligations.SyscallAlwaysCompletes : Prop :=
  (∀ (reg : RegIdx) (value : Word) (s : State), s.cfg.sys.Wf → ∃ t, exec (.syscall reg value) s = .next t ∧
    t.pc = s.pc ∧ KeepsMem [] s t ∧ KeepsControl s t ∧ KeepsRegs [reg] s t ∧
    (value.toInt ≠ s.cfg.sys.readInt → value.toInt ≠ s.cfg.sys.readChar → KeepsRegs [] s t) ∧
    (t.runState = .running ↔
      value.toInt ∈ [s.cfg.sys.readInt, s.cfg.sys.printInt, s.cfg.sys.readChar, s.cfg.sys.writeChar]) ∧
    ((∃ r, t.runState = .halted r) ↔
      value.toInt = s.cfg.sys.exit ∨ value.toInt ∉ s.cfg.sys.toList)) ∧
  DecodesRI .syscall 1 .syscall

/-- R141: the exit service halts with reason Exit and changes nothing else. -/
def Obligations.ExitServiceHalts : Prop :=
  ∀ (reg : RegIdx) (value : Word) (s : State), value.toInt = s.cfg.sys.exit →
    exec (.syscall reg value) s = .next { s with runState := .halted .exit }

/-- From R142 and R144, the answer in the model's own form (log 8): read-int and read-char replace the register by the
Word the host answers: whatever the next listed answer is, and a free value where none is listed. No event is handed
out. A host that never answers (U17) is not shown (log 8). -/
def Obligations.ReadServicesTakeOneAnswer : Prop :=
  ∀ (reg : RegIdx) (value : Word) (s : State), s.cfg.sys.Wf →
    value.toInt = s.cfg.sys.readInt ∨ value.toInt = s.cfg.sys.readChar →
    ∃ t, exec (.syscall reg value) s = .next t ∧ t.pc = s.pc ∧ KeepsRegs [reg] s t ∧ KeepsMem [] s t ∧
      KeepsControl s t ∧ t.runState = .running ∧ t.console.events = s.console.events ∧
      (∀ v rest, s.console.answers = v :: rest →
        t.reg reg = v ∧ t.console.answers = rest ∧ t.console.draws = s.console.draws) ∧
      (s.console.answers = [] → t.reg reg = Config.consoleAnswer s.console.draws ∧
        t.console.answers = [] ∧ t.console.draws = s.console.draws + 1)

/-- From R143 and R145, the event in the model's own record (log 9): print-int and write-char hand the whole Word of
the register to the host and change nothing else. -/
def Obligations.WriteServicesEmitOneEvent : Prop :=
  ∀ (reg : RegIdx) (value : Word) (s : State), s.cfg.sys.Wf →
    (value.toInt = s.cfg.sys.printInt → exec (.syscall reg value) s = .next { s with
      runState := .running, console := { s.console with events := s.console.events ++ [.outInt (s.reg reg)] } }) ∧
    (value.toInt = s.cfg.sys.writeChar → exec (.syscall reg value) s = .next { s with
      runState := .running, console := { s.console with events := s.console.events ++ [.outChar (s.reg reg)] } })

/-- From R146, the diagnostic as an event in the model's own record (R147, decision D15; log 9): a code that is none
of the five hands the code to the host and halts with reason UnknownSyscall; nothing else changes. -/
def Obligations.UnknownServiceHaltsWithDiagnostic : Prop :=
  ∀ (reg : RegIdx) (value : Word) (s : State), value.toInt ∉ s.cfg.sys.toList →
    exec (.syscall reg value) s = .next { s with
      runState := .halted (.unknownSyscall value.toInt),
      console := { s.console with events := s.console.events ++ [.diag value] } }

/-- From R206: a halt comes only from `syscall`, leaves every register, memory word and control register as it was and
`pc` after the `syscall` word, and the `exec` that ends so reports status 1 (R208, decision D11; log 24). A halted
Processor refuses `exec`, repeating the reason, and `set_flags`, both without a state change (R100 and R29, the spec's
decisions D12 and D17; log 19), and accepts any image that fits, whatever its entry (R232, decision D13; log 23). -/
def Obligations.HaltOnlyBySyscall : Prop :=
  ∀ (i : Instr) (s t : State) (r : HaltReason), exec i s = .next t → t.runState = .halted r →
    (∃ reg value, i = .syscall reg value) ∧ t.pc = s.pc ∧ KeepsRegs [] s t ∧ KeepsMem [] s t ∧ KeepsControl s t ∧
      (∀ u, step u = .next t → u.execTransaction = (t, .halted r)) ∧ (ExecReport.halted r).number = some 1 ∧
      t.execTransaction = (t, .refused (.alreadyHalted r)) ∧ (∀ v, t.setFlags v = .error (.alreadyHalted r)) ∧
      (∀ (entry : Word) (ws : List Word), ws.length ≤ t.cfg.memSize → ∃ u, t.loadProgram (entry :: ws) = .ok u)

/-- From R147, in the model's own record of the console (log 8, 9): no instruction but `syscall` touches the console,
and a `syscall` performs at most one transaction: at most one event, handed out after all earlier ones, or one answer
taken. -/
def Obligations.ConsoleTouchedOnlyBySyscall : Prop :=
  ∀ (i : Instr) (s t : State), exec i s = .next t →
    (t.console = s.console ∨ ∃ reg value, i = .syscall reg value) ∧
    ((∃ e, t.console = { s.console with events := s.console.events ++ [e] }) ∨
      (t.console.events = s.console.events ∧
        (t.console = s.console ∨
          (∃ v rest, s.console.answers = v :: rest ∧ t.console = { s.console with answers := rest }) ∨
          (s.console.answers = [] ∧ t.console = { s.console with draws := s.console.draws + 1 }))))

/-! ### Control transfer -/

/-- R151, by the common transfer of R150: `jmp` pushes the return address and goes to the absolute target; the target
is checked by the next fetch, not by the jump. -/
def Obligations.JmpPushesReturnAddress : Prop :=
  (∀ (reg : RegIdx) (value : Word) (s : State),
    ((s.reg spReg - 1).toNat < s.cfg.memSize → ∃ t, exec (.jmp reg value) s = .next t ∧ JumpsAndPushes value s t ∧
      (s.cfg.memSize ≤ value.toNat → step t = .fault (.boundsMem value value))) ∧
    (s.cfg.memSize ≤ (s.reg spReg - 1).toNat →
      exec (.jmp reg value) s = .fault (.boundsMem (s.reg spReg - 1) (s.pc - 1)))) ∧
  DecodesRM .jmp 46 .jmp

/-- R152 to R157: `jne`, `jeq`, `jle`, `jl`, `jge` and `jg` each jump and push exactly when their relation holds, and
otherwise change nothing and access no stack. -/
def Obligations.ConditionalJumpsFollowFlags : Prop :=
  (JumpsExactlyWhen (· ≠ 0) .jne ∧ DecodesRM .jne 47 .jne) ∧
  (JumpsExactlyWhen (· = 0) .jeq ∧ DecodesRM .jeq 48 .jeq) ∧
  (JumpsExactlyWhen (· ≤ 0) .jle ∧ DecodesRM .jle 49 .jle) ∧
  (JumpsExactlyWhen (· < 0) .jl ∧ DecodesRM .jl 50 .jl) ∧
  (JumpsExactlyWhen (· ≥ 0) .jge ∧ DecodesRM .jge 51 .jge) ∧
  (JumpsExactlyWhen (· > 0) .jg ∧ DecodesRM .jg 52 .jg)

/-- R158: `ret` takes `pc` from the top of the stack and releases `value + 1` slots; nothing is cleared. -/
def Obligations.RetReturnsAndReleases : Prop :=
  (∀ (reg : RegIdx) (value : Word) (s : State),
    ((s.reg spReg).toNat < s.cfg.memSize → ∃ t, exec (.ret reg value) s = .next t ∧
      t.pc = s.mem.read (s.reg spReg).toNat ∧ t.reg spReg = s.reg spReg + value + 1 ∧ Keeps [spReg] [] s t) ∧
    (s.cfg.memSize ≤ (s.reg spReg).toNat →
      exec (.ret reg value) s = .fault (.boundsMem (s.reg spReg) (s.pc - 1)))) ∧
  DecodesRM .ret 42 .ret

/-- From R150 and R158 (a): `ret 0` undoes exactly one taken jump, conditional or not: every jump that is taken and has
room completes, and whatever ran after it, with the stack pointer back at the pushed word and that word unmodified `ret 0`
returns to the word after the jump with the stack pointer as it was. -/
def Obligations.RetUndoesJump : Prop :=
  ∀ (i : Instr) (reg : RegIdx) (s : State), JumpTaken i s.flags → (s.reg spReg - 1).toNat < s.cfg.memSize →
    ∃ t, exec i s = .next t ∧
      ∀ u : State, u.cfg = s.cfg → u.reg spReg = t.reg spReg →
        u.mem.read (t.reg spReg).toNat = t.mem.read (t.reg spReg).toNat →
        ∃ v, exec (.ret reg 0) u = .next v ∧ v.pc = s.pc ∧ v.reg spReg = s.reg spReg

/-! ### RR instructions -/

/-- R170: `mov`. -/
def Obligations.MovCopiesWithOffset : Prop :=
  (∀ (inReg outReg : RegIdx) (value : Word) (s : State), ∃ t, exec (.mov inReg outReg value) s = .next t ∧
    t.reg inReg = s.reg outReg + value ∧ t.pc = s.pc ∧ Keeps [inReg] [] s t) ∧
  DecodesRR .mov 24 .mov

/-- From R171, whose default reading is the spec's decision D8 (log 5): the 64-bit product under both readings: the
low Words agree, and the high Words differ by the stated correction. -/
def Obligations.ProductUnderBothReadings : Prop :=
  ∀ a b : Word,
    (mul64 false a b).toNat = a.toNat * b.toNat ∧
    ((mul64 true a b).toNat : Int) = (a.toInt * b.toInt) % 2 ^ 64 ∧
    lowWord (mul64 false a b) = a * b ∧ lowWord (mul64 true a b) = a * b ∧
    highWord (mul64 true a b) =
      highWord (mul64 false a b) - (if a.getLsbD 31 then b else 0) - (if b.getLsbD 31 then a else 0)

/-- From R172, whose fault for `in_reg = 15` is the spec's decision D22 (log 16) and whose default signedness is its
decision D8 (log 5): `mul` leaves the product in the register pair, low word first, and with `in_reg = 15` raises
`BoundsFault(reg, 16)`. -/
def Obligations.MulSplitsProduct : Prop :=
  (∀ (inReg outReg : RegIdx) (value : Word) (s : State) (h : inReg.val + 1 < 16),
    ∃ t, exec (.mul inReg outReg value) s = .next t ∧
      (s.cfg.mulSigned = false →
        (t.reg inReg).toNat + 2 ^ 32 * (t.reg ⟨inReg.val + 1, h⟩).toNat =
          (s.reg inReg).toNat * (s.reg outReg + value).toNat) ∧
      (s.cfg.mulSigned = true →
        ((t.reg inReg).toNat : Int) + 2 ^ 32 * (t.reg ⟨inReg.val + 1, h⟩).toNat =
          ((s.reg inReg).toInt * (s.reg outReg + value).toInt) % 2 ^ 64) ∧
      t.pc = s.pc ∧ Keeps [inReg, ⟨inReg.val + 1, h⟩] [] s t) ∧
  (∀ (outReg : RegIdx) (value : Word) (s : State),
    exec (.mul 15 outReg value) s = .fault (.boundsReg 16 (s.pc - 1))) ∧
  DecodesRR .mul 6 .mul

/-- From R173: `loadr`. That an effective address which passes 2^32 wraps and then completes where it is in bounds is
the spec's decision D7 (R66, R173 (c), alternative in U6) and the model's choice of log 13, unsafe for such an
address. -/
def Obligations.LoadrLoadsFromRegisterAddress : Prop :=
  (∀ (inReg outReg : RegIdx) (value : Word) (s : State),
    ((s.reg outReg + value).toNat < s.cfg.memSize → ∃ t, exec (.loadr inReg outReg value) s = .next t ∧
      t.reg inReg = s.mem.read (s.reg outReg + value).toNat ∧ t.pc = s.pc ∧ Keeps [inReg] [] s t) ∧
    (s.cfg.memSize ≤ (s.reg outReg + value).toNat →
      exec (.loadr inReg outReg value) s = .fault (.boundsMem (s.reg outReg + value) (s.pc - 1)))) ∧
  DecodesRR .loadr 68 .loadr

/-! ### Whole-machine rules -/

/-- From R65: the only data writes are those of `push`, `pop` and the taken jumps, at the address the instruction
computes from the stack pointer; for `pop` with `reg = 14` that is the new one (log 12). -/
def Obligations.MemoryWrittenOnlyThroughStackPointer : Prop :=
  ∀ (i : Instr) (s t : State), exec i s = .next t → KeepsMem (storedAt i s).toList s t

/-- From R63: the word pushed by `push` of a register other than 14 is what the very next fetch at its address
executes, with nothing needed in between. StoredWordIsFetched says the same of every store. -/
def Obligations.PushedWordIsFetched : Prop :=
  ∀ (reg : RegIdx) (value : Word) (s : State) (i : Instr), reg ≠ spReg → (s.reg spReg - 1).toNat < s.cfg.memSize →
    s.pc = s.reg spReg - 1 → decode s.cfg.opc (s.reg reg + value) = .instr i →
    ∃ t, exec (.push reg value) s = .next t ∧ step t = exec i { t with pc := t.pc + 1 }

/-- R28: no instruction writes `flags`; each of the six conditional jumps reads it, some state and some other `flags`
giving it another effect; and no other instruction does, a different `flags` being carried along and changing nothing
else. -/
def Obligations.FlagsReadOnlyByConditionalJumps : Prop :=
  (∀ (i : Instr) (s t : State), exec i s = .next t → t.flags = s.flags) ∧
  (∀ (i : Instr) (s : State) (f : Word), i.mnemonic ∉ conditionalJumps →
    exec i { s with flags := f } = mapNext (fun t => { t with flags := f }) (exec i s)) ∧
  (∀ m ∈ conditionalJumps, ∃ (i : Instr) (s : State) (f : Word), i.mnemonic = m ∧
    exec i { s with flags := f } ≠ mapNext (fun t => { t with flags := f }) (exec i s))

/-- R30: `load_program` sets `frame` to STACK_TOP, and no instruction writes or reads it: a step carries any other
`frame` along and changes nothing else. -/
def Obligations.FrameNeverReadOrWritten : Prop :=
  (∀ (s t : State) (image : List Word), s.loadProgram image = .ok t → t.frame = s.cfg.stackTop) ∧
  (∀ s t : State, step s = .next t → t.frame = s.frame) ∧
  (∀ (s : State) (v : Word), step { s with frame := v } = mapNext (fun t => { t with frame := v }) (step s))

/-- From R202: `BoundsFault(mem, addr)` inside a handler comes only from the listed sites, with an address that is out
of bounds and the address of the executing word. For `pop` with `reg = 14` the site of the clearing write is the new
stack pointer, the spec's own reading (R131 (e), decision D9, U4; log 12), and for `loadr` the address is checked
after it has wrapped (R66, decision D7, U6; log 13); both choices are unsafe for those forms. -/
def Obligations.MemoryFaultSitesAreTheListedOnes : Prop :=
  (∀ (i : Instr) (s : State) (a site : Word), exec i s = .fault (.boundsMem a site) →
    s.cfg.memSize ≤ a.toNat ∧ site = s.pc - 1 ∧
      match i with
      | .push _ _ | .jmp _ _ => a = s.reg spReg - 1
      | .pop reg value => a = s.reg spReg ∨ reg = spReg ∧ a = s.mem.read (s.reg spReg).toNat + value
      | .jne _ _ => s.flags.toInt ≠ 0 ∧ a = s.reg spReg - 1
      | .jeq _ _ => s.flags.toInt = 0 ∧ a = s.reg spReg - 1
      | .jle _ _ => s.flags.toInt ≤ 0 ∧ a = s.reg spReg - 1
      | .jl _ _ => s.flags.toInt < 0 ∧ a = s.reg spReg - 1
      | .jge _ _ => 0 ≤ s.flags.toInt ∧ a = s.reg spReg - 1
      | .jg _ _ => 0 < s.flags.toInt ∧ a = s.reg spReg - 1
      | .ret _ _ => a = s.reg spReg
      | .loadr _ outReg value => a = s.reg outReg + value
      | .addi _ _ | .lc _ _ | .syscall _ _ | .mov _ _ _ | .mul _ _ _ => False) ∧
  (∀ (s : State) (a site : Word), s.Startable → s.cfg.memSize ≤ s.pc.toNat →
    (step s = .fault (.boundsMem a site) ↔ a = s.pc ∧ site = s.pc))

/-- From R203: `BoundsFault(reg, index)` has one raising site: `mul` with `in_reg = 15`, index 16, a fault and no wrap
to register 0 by the spec's decision D22 (log 16). -/
def Obligations.RegisterFaultOnlyByMul15 : Prop :=
  ∀ (i : Instr) (s : State) (n : Nat) (site : Word),
    exec i s = .fault (.boundsReg n site) ↔ (∃ outReg value, i = .mul 15 outReg value) ∧ n = 16 ∧ site = s.pc - 1

/-! ### Reset, loading, invariants -/

/-- From R38 and R230, the spec's decision D12 (log 10; a configuration outside R8 is refused, log 18): the state
after construction. The console's fields are the model's own (log 8, 9) and not stated here. -/
def Obligations.ConstructionValues : Prop :=
  ∀ c : Config, (c.Wf → construct? c = some (State.construct c)) ∧
    (State.construct c).cfg = c ∧ (State.construct c).runState = .unloaded ∧
    (∀ r, (State.construct c).reg r = if r = spReg then c.stackTop else 0) ∧
    (State.construct c).pc = 0 ∧ (State.construct c).flags = 0 ∧ (State.construct c).frame = c.stackTop ∧
    (∀ a, (State.construct c).mem.read a = 0)

/-- From R37 and R231, with the spec's decisions D4, D5 and D13 (log 5, 7, 15): every piece of state after an accepted
`load_program`, whatever the state before. -/
def Obligations.LoadProgramResetsEverything : Prop :=
  ∀ (s : State) (entry : Word) (ws : List Word), ws.length ≤ s.cfg.memSize →
    ∃ t, s.loadProgram (entry :: ws) = .ok t ∧ t.cfg = s.cfg ∧ t.runState = .ready ∧ t.pc = entry ∧
      (∀ r, t.reg r = if r = spReg then s.cfg.stackTop else 0) ∧ t.flags = 0 ∧ t.frame = s.cfg.stackTop ∧
      (∀ (a : Nat) (h : a < ws.length), t.mem.read a = ws[a]) ∧ (∀ a, ws.length ≤ a → t.mem.read a = 0)

/-- From R232, the spec's decision D13 (log 23): which images are accepted, and what the first `exec` does with an
empty memory or an entry out of bounds. -/
def Obligations.ImageAcceptance : Prop :=
  ∀ s : State,
    (s.loadProgram [] = .error .empty) ∧
    (∀ (entry : Word) (ws : List Word), (∃ t, s.loadProgram (entry :: ws) = .ok t) ↔ ws.length ≤ s.cfg.memSize) ∧
    (∀ entry : Word, ∃ t, s.loadProgram [entry] = .ok t ∧
      (s.cfg.opc = Opcodes.default → entry.toNat < s.cfg.memSize → step t = .fault (.dispatch 0 entry))) ∧
    (∀ (entry : Word) (ws : List Word), ws.length ≤ s.cfg.memSize → s.cfg.memSize ≤ entry.toNat →
      ∃ t, s.loadProgram (entry :: ws) = .ok t ∧ step t = .fault (.boundsMem entry entry))

/-- From R233, which the spec derives from R231: the state after `load_program` does not depend on the state before,
only on the image, the configuration and the host's console inputs. -/
def Obligations.LoadForgetsThePast : Prop :=
  ∀ (s s' : State) (image : List Word), s.cfg = s'.cfg → s.console.answers = s'.console.answers →
    s.console.draws = s'.console.draws → s.loadProgram image = s'.loadProgram image

/-- From R29, whose refusals are the spec's decision D17 (log 15, 19): `set_flags` writes `flags` and nothing else, in
Ready and Running, and is refused elsewhere. -/
def Obligations.SetFlagsWritesOnlyFlags : Prop :=
  ∀ (s : State) (v : Word),
    (s.Startable → s.setFlags v = .ok { s with flags := v }) ∧ (¬ s.Startable → ∃ r, s.setFlags v = .error r)

/-- The invariant holds right after reset (the values of R8 and R38; log 2 to 5 and 10). -/
def Obligations.ResetMeetsInvariant : Prop := State.reset.Inv

/-- The invariant holds after every accepted `load_program`, from any state with an admitted configuration; the
canonical form of memory is the model's (log 6, 7). -/
def Obligations.LoadEstablishesInvariant : Prop :=
  ∀ (s t : State) (image : List Word), s.cfg.Wf → s.loadProgram image = .ok t → t.Inv

/-- The invariant is kept by every step: the configuration stays admitted (R34), memory stays canonical (the model's
form, log 6, 7) and inside the address space (R33, R51), `frame` stays at STACK_TOP (R30). -/
def Obligations.StepKeepsInvariant : Prop :=
  ∀ s t : State, s.Inv → step s = .next t → t.Inv

/-- From R30, R34 and R160: in every run from an accepted image in which the host never calls `set_flags`, `flags`
stays 0, `frame` stays at STACK_TOP and the configuration never changes, so `jeq`, `jle` and `jge` always act as `jmp`
and `jne`, `jl` and `jg` never jump. That `flags` is 0 after a load and has no other writer than `set_flags` is the
spec's decisions D5 and D17 (log 15), unsafe if a handler of the real machine writes `flags`. -/
def Obligations.RunsWithoutSetFlagsDecideEveryJump : Prop :=
  ∀ (s t u : State) (image : List Word), s.cfg.Wf → s.loadProgram image = .ok t → RunsTo t u →
    u.flags = 0 ∧ u.frame = s.cfg.stackTop ∧ u.cfg = s.cfg ∧ u.Inv ∧
    ∀ (reg : RegIdx) (value : Word) (v : State), v = { u with pc := u.pc + 1 } →
      exec (.jeq reg value) v = exec (.jmp reg value) v ∧ exec (.jle reg value) v = exec (.jmp reg value) v ∧
      exec (.jge reg value) v = exec (.jmp reg value) v ∧
      exec (.jne reg value) v = .next { v with runState := .running } ∧
      exec (.jl reg value) v = .next { v with runState := .running } ∧
      exec (.jg reg value) v = .next { v with runState := .running }

/-! ### Stores seen by fetches, and the invariant with `flags` at 0 -/

/-- From R63: a store is seen by every later fetch, with nothing needed in between. Whatever instruction stored the word
(`push` of any register, `pop` clearing its slot, a jump its return address; register 14 by log 12), a fetch at its
address, the very next or a later one while no other store has changed that word, reads it, and the step runs the
instruction it decodes to or faults on its opcode. -/
def Obligations.StoredWordIsFetched : Prop :=
  ∀ (i : Instr) (s t u : State) (a : Nat) (w : Word), exec i s = .next t → storedAt i s = some a →
    storedWord i s = some w → u.cfg = s.cfg → u.pc.toNat = a → u.mem.read a = t.mem.read a →
    u.fetch = .ok (w, { u with pc := u.pc + 1 }) ∧
    (u.Startable → ∀ j, decode s.cfg.opc w = .instr j → step u = exec j { u with pc := u.pc + 1 }) ∧
    (u.Startable → ∀ op, decode s.cfg.opc w = .illegal op → step u = .fault (.dispatch op u.pc))

/-- From R28, R30, R34 and R160, with log 15 (decisions D5, D17): the invariant together with `flags` at 0 is kept by
every step, so between two calls of `set_flags` the column of R160 for 0 stays the one that applies. -/
def Obligations.StepKeepsInvariantWithFlagsZero : Prop :=
  ∀ s t : State, s.Inv ∧ s.flags = 0 → step s = .next t → t.Inv ∧ t.flags = 0
end

