-- ==== Sys2Proof/Laws/Codec.lean ====
section
/-! SUPPORT. The Command Table's lookup, and the fields of an encoded word one by one. -/

namespace Sys2Proof

theorem Mnemonic.mem_all (m : Mnemonic) : m ∈ Mnemonic.all := by cases m <;> simp [Mnemonic.all]

theorem Opcodes.code_injective {o : Opcodes} (h : o.Injective) {m n : Mnemonic} (hc : o.code m = o.code n) :
    m = n :=
  List.inj_on_of_nodup_map h m.mem_all n.mem_all hc

theorem Opcodes.lookup_eq_some {o : Opcodes} {op : BitVec 8} {m : Mnemonic} (h : o.lookup op = some m) :
    o.code m = op := by
  simpa using List.find?_some h

theorem Opcodes.lookup_code {o : Opcodes} (h : o.Injective) (m : Mnemonic) : o.lookup (o.code m) = some m := by
  cases hl : o.lookup (o.code m) with
  | none => simpa using List.find?_eq_none.mp hl m m.mem_all
  | some n => rw [Opcodes.code_injective h (Opcodes.lookup_eq_some hl)]

theorem Opcodes.lookup_eq_none_iff {o : Opcodes} {op : BitVec 8} : o.lookup op = none ↔ ∀ m, o.code m ≠ op := by
  simp only [Opcodes.lookup, List.find?_eq_none, beq_iff_eq]
  exact ⟨fun h m => h m m.mem_all, fun h m _ => h m⟩

/-- Everything the decoder can answer: the opcode is no mnemonic's, or it is one mnemonic's and selects it (R103). -/
theorem decode_cases (o : Opcodes) (w : Word) :
    (decode o w = .illegal (opcodeField w) ∧ ∀ m, o.code m ≠ opcodeField w)
      ∨ ∃ m, o.code m = opcodeField w ∧ decode o w = .instr (operandsOf m w) := by
  unfold decode
  split
  · next h => exact .inl ⟨rfl, Opcodes.lookup_eq_none_iff.mp h⟩
  · next m h => exact .inr ⟨m, Opcodes.lookup_eq_some h, rfl⟩

theorem decode_of_code {o : Opcodes} (h : o.Injective) {w : Word} {m : Mnemonic} (hw : opcodeField w = o.code m) :
    decode o w = .instr (operandsOf m w) := by
  unfold decode
  rw [hw, Opcodes.lookup_code h]

theorem mnemonic_operandsOf (m : Mnemonic) (w : Word) : (operandsOf m w).mnemonic = m := by
  cases m <;> rfl

/-! ### The fields of an encoded word -/

theorem opcodeField_encodeRI (f : RegFields) : opcodeField (encodeRI f) = f.op := by
  ext i hi
  simp only [opcodeField, encodeRI, BitVec.getElem_extractLsb', BitVec.getLsbD_append]
  simp only [show ¬ 24 + i < 20 by omega, show ¬ 24 + i - 20 < 4 by omega, if_false,
    show 24 + i - 20 - 4 = i by omega, BitVec.getLsbD_eq_getElem hi]

theorem opcodeField_encodeRM (f : RegFields) : opcodeField (encodeRM f) = f.op := opcodeField_encodeRI f

theorem opcodeField_encodeRR (f : RegRegFields) : opcodeField (encodeRR f) = f.op := by
  ext i hi
  simp only [opcodeField, encodeRR, BitVec.getElem_extractLsb', BitVec.getLsbD_append]
  simp only [show ¬ 24 + i < 16 by omega, show ¬ 24 + i - 16 < 4 by omega, show ¬ 24 + i - 16 - 4 < 4 by omega,
    if_false, show 24 + i - 16 - 4 - 4 = i by omega, BitVec.getLsbD_eq_getElem hi]

/-! ### The register and operand fields of a word put together, and extension against truncation -/

theorem regField_append (op : BitVec 8) (r : RegIdx) (v : BitVec 20) :
   regField (op ++ (BitVec.ofFin r : BitVec 4) ++ v) = r := by
  have : (op ++ (BitVec.ofFin r : BitVec 4) ++ v).extractLsb' 20 4 =
      (BitVec.ofFin r : BitVec 4) := by
    ext i hi
    simp only [BitVec.getElem_extractLsb', BitVec.getLsbD_append]
    simp [show 20 + i - 20 = i by omega, hi]
  unfold regField; rw [this]

theorem extractLsb_append_20 (op : BitVec 12) (v : BitVec 20) : ((op ++ v : BitVec 32)).extractLsb' 0 20 = v := by
    ext i hi
    simp only [BitVec.getElem_extractLsb', BitVec.getLsbD_append]
    simp [hi]

theorem extractLsb_append_16 (op : BitVec 16) (v : BitVec 16) : ((op ++ v : BitVec 32)).extractLsb' 0 16 = v := by
    ext i hi
    simp only [BitVec.getElem_extractLsb', BitVec.getLsbD_append]
    simp [hi]

theorem regField_appendRR (op : BitVec 8) (r r': RegIdx) (v : BitVec 16) :
   regField (op ++ (BitVec.ofFin r : BitVec 4) ++ (BitVec.ofFin r' : BitVec 4) ++ v) = r := by
  have : (op ++ (BitVec.ofFin r : BitVec 4) ++ (BitVec.ofFin r' : BitVec 4) ++ v).extractLsb' 20 4 =
      (BitVec.ofFin r : BitVec 4) := by
    ext i hi
    simp only [BitVec.getElem_extractLsb', BitVec.getLsbD_append]
    simp [show 20 + i - 16 = 4 + i by omega, show ¬ 20 + i < 16 by omega, hi]
  unfold regField; rw [this]

theorem outRegField_appendRR (op : BitVec 8) (r r': RegIdx) (v : BitVec 16) :
   outRegField (op ++ (BitVec.ofFin r : BitVec 4) ++ (BitVec.ofFin r' : BitVec 4) ++ v) = r' := by
  have : (op ++ (BitVec.ofFin r : BitVec 4) ++ (BitVec.ofFin r' : BitVec 4) ++ v).extractLsb' 16 4 =
      (BitVec.ofFin r' : BitVec 4) := by
    ext i hi
    simp only [BitVec.getElem_extractLsb', BitVec.getLsbD_append]
    simp [show 16 + i - 16 = i by omega, hi]
  unfold outRegField; rw [this]

theorem sext20_setWidth (v : Word) (h : inRangeRI v) : sext20 (v.setWidth 20) = v := by
  simp only [inRangeRI, Bool.and_eq_true, decide_eq_true_eq] at h
  apply BitVec.eq_of_toInt_eq
  unfold sext20
  rw [BitVec.toInt_signExtend_of_le (by decide), BitVec.toInt_setWidth]
  have := v.toInt_eq_toNat_cond
  rw [Int.bmod_def]
  have h1 := v.isLt
  split at this <;> split <;> omega

theorem sext16_setWidth (v : Word) (h : inRangeRR v) : sext16 (v.setWidth 16) = v := by
  simp only [inRangeRR, Bool.and_eq_true, decide_eq_true_eq] at h
  apply BitVec.eq_of_toInt_eq
  unfold sext16
  rw [BitVec.toInt_signExtend_of_le (by decide), BitVec.toInt_setWidth]
  have := v.toInt_eq_toNat_cond
  rw [Int.bmod_def]
  have h1 := v.isLt
  split at this <;> split <;> omega

theorem zext20_setWidth (v : Word) (h : inRangeRM v) : zext20 (v.setWidth 20) = v := by
  simp only [inRangeRM, decide_eq_true_eq] at h
  apply BitVec.eq_of_toNat_eq
  unfold zext20
  simp; omega

theorem setWidth_sext20 (v : BitVec 20) : (sext20 v).setWidth 20 = v := by
  unfold sext20
  ext i hi
  simp [show i < 32 by omega, BitVec.getElem_signExtend, hi]

theorem setWidth_zext20 (v : BitVec 20) : (zext20 v).setWidth 20 = v := by
  unfold zext20
  ext i hi
  simp

theorem setWidth_sext16 (v : BitVec 16) : (sext16 v).setWidth 16 = v := by
  unfold sext16
  ext i hi
  simp [show i < 32 by omega, BitVec.getElem_signExtend, hi]

theorem append_fields_20 (w : Word) :
    (opcodeField w ++ (BitVec.ofFin (regField w) : BitVec 4) ++ w.extractLsb' 0 20 : BitVec 32) = w := by
  have : (BitVec.ofFin (regField w) : BitVec 4) = w.extractLsb' 20 4 := rfl
  rw [this]; unfold opcodeField
  ext i hi
  simp only [BitVec.getElem_append, BitVec.getElem_extractLsb']
  split
  · simp [BitVec.getLsbD_eq_getElem hi]
  · split
    · simp [show 20 + (i - 20) = i by omega, BitVec.getLsbD_eq_getElem hi]
    · simp [show 24 + (i - 20 - 4) = i by omega, BitVec.getLsbD_eq_getElem hi]

theorem append_fields_16 (w : Word) :
    (opcodeField w ++ (BitVec.ofFin (regField w) : BitVec 4) ++ (BitVec.ofFin (outRegField w) : BitVec 4)
      ++ w.extractLsb' 0 16 : BitVec 32) = w := by
  have : (BitVec.ofFin (regField w) : BitVec 4) = w.extractLsb' 20 4 := rfl
  rw [this]
  have : (BitVec.ofFin (outRegField w) : BitVec 4) = w.extractLsb' 16 4 := rfl
  rw [this]; unfold opcodeField
  ext i hi
  simp only [BitVec.getElem_append, BitVec.getElem_extractLsb']
  split
  · simp [BitVec.getLsbD_eq_getElem hi]
  · split
    · simp [show 16 + (i - 16) = i by omega, BitVec.getLsbD_eq_getElem hi]
    · split
      · simp [show 20 + (i - 16 - 4) = i by omega, BitVec.getLsbD_eq_getElem hi]
      · simp [show 24 + (i - 16 - 4 - 4) = i by omega, BitVec.getLsbD_eq_getElem hi]

/-! ### An opcode that is no mnemonic's -/

theorem decode_illegal {o : Opcodes} {w : Word} (h : ∀ m, o.code m ≠ opcodeField w) :
    decode o w = .illegal (opcodeField w) := by
  unfold decode
  rw [Opcodes.lookup_eq_none_iff.mpr h]

end Sys2Proof
end

