-- ==== Sys2Proof/Laws/Memory.lean ====
section
/-! SUPPORT. The laws of memory: a read after a write, the canonical form and its preservation, and extensionality
(equal reads and canonical form give equal data). -/

namespace Sys2Proof.Machine

@[simp] theorem Memory.read_nil (a : Nat) : Memory.read [] a = 0 := rfl

theorem Memory.read_cons (c : WordCell) (m : Memory) (a : Nat) :
    Memory.read (c :: m) a = if c.1 = a then c.2 else m.read a := rfl

theorem Memory.read_of_not_mem (m : Memory) (a : Nat) (h : ∀ c ∈ m, c.1 ≠ a) : m.read a = 0 := by
  induction m with
  | nil => rfl
  | cons c m ih =>
    rw [Memory.read_cons, if_neg (h c (by simp)), ih fun d hd => h d (by simp [hd])]

theorem Memory.read_erase (m : Memory) (a b : Nat) :
    (m.erase a).read b = if b = a then 0 else m.read b := by
  induction m with
  | nil => simp [Memory.erase]
  | cons c m ih =>
    simp only [Memory.erase] at ih ⊢
    by_cases hc : c.1 = a
    · rw [List.filter_cons_of_neg (by simp [hc]), ih, Memory.read_cons]
      by_cases hb : b = a
      · simp [hb]
      · have : c.1 ≠ b := by omega
        simp [hb, this]
    · rw [List.filter_cons_of_pos (by simp [hc]), Memory.read_cons, ih, Memory.read_cons]
      by_cases hb : b = a
      · have : c.1 ≠ b := by omega
        simp [hb, hc]
      · simp [hb]

theorem Memory.read_insert (m : Memory) (a b : Nat) (v : Word) (h : ∀ c ∈ m, c.1 ≠ a) :
    (Memory.insert a v m).read b = if b = a then v else m.read b := by
  induction m with
  | nil => simp [Memory.insert, Memory.read_cons, eq_comm]
  | cons c m ih =>
    have hc : c.1 ≠ a := h c (by simp)
    have ih := ih fun d hd => h d (by simp [hd])
    unfold Memory.insert
    split
    · simp only [Memory.read_cons, eq_comm]
    · rw [Memory.read_cons, ih, Memory.read_cons]
      by_cases hb : b = a
      · have : c.1 ≠ b := by omega
        simp [hb, hc]
      · simp [hb]

theorem Memory.mem_erase {m : Memory} {a : Nat} {c : WordCell} : c ∈ m.erase a ↔ c ∈ m ∧ c.1 ≠ a := by
  simp [Memory.erase]

theorem Memory.mem_insert {m : Memory} {a : Nat} {v : Word} {c : WordCell} :
    c ∈ Memory.insert a v m ↔ c = (a, v) ∨ c ∈ m := by
  induction m with
  | nil => simp [Memory.insert]
  | cons d m ih =>
    unfold Memory.insert
    split
    · simp
    · simp only [List.mem_cons, ih]; tauto

/-- A write is read back at its address and leaves every other address alone (R52, R53), canonical form or not. -/
theorem Memory.read_write (m : Memory) (a b : Nat) (v : Word) :
    (m.write a v).read b = if b = a then v else m.read b := by
  unfold Memory.write
  split
  · next hv => rw [Memory.read_erase, hv]
  · rw [Memory.read_insert _ _ _ _ fun c hc => (Memory.mem_erase.mp hc).2, Memory.read_erase]
    split <;> simp_all

@[simp] theorem Memory.read_write_same (m : Memory) (a : Nat) (v : Word) : (m.write a v).read a = v := by
  simp [Memory.read_write]

theorem Memory.read_write_other (m : Memory) (a b : Nat) (v : Word) (h : b ≠ a) :
    (m.write a v).read b = m.read b := by
  simp [Memory.read_write, h]

theorem Memory.mem_write {m : Memory} {a : Nat} {v : Word} {c : WordCell} (h : c ∈ m.write a v) :
    c = (a, v) ∨ c ∈ m := by
  unfold Memory.write at h
  split at h
  · exact .inr (Memory.mem_erase.mp h).1
  · rcases Memory.mem_insert.mp h with h | h
    · exact .inl h
    · exact .inr (Memory.mem_erase.mp h).1

theorem Memory.wf_nil : Memory.wf [] := by simp [Memory.wf]

theorem Memory.wf_erase {m : Memory} (h : m.wf) (a : Nat) : (m.erase a).wf :=
  ⟨h.1.filter _, fun c hc => h.2 c (Memory.mem_erase.mp hc).1⟩

theorem Memory.wf_insert {m : Memory} (h : m.wf) (a : Nat) (v : Word) (hv : v ≠ 0) (ha : ∀ c ∈ m, c.1 ≠ a) :
    (Memory.insert a v m).wf := by
  induction m with
  | nil => exact ⟨List.pairwise_singleton _ _, fun c hc => List.mem_singleton.mp hc ▸ hv⟩
  | cons c m ih =>
    obtain ⟨hp, hz⟩ := h
    rw [List.pairwise_cons] at hp
    have hm : Memory.wf m := ⟨hp.2, fun d hd => hz d (by simp [hd])⟩
    have hca : c.1 ≠ a := ha c (by simp)
    unfold Memory.insert
    split
    · next hlt =>
      refine ⟨List.pairwise_cons.mpr ⟨?_, List.pairwise_cons.mpr hp⟩, ?_⟩
      · intro d hd
        rcases List.mem_cons.mp hd with rfl | hd
        · exact hlt
        · exact hlt.trans (hp.1 d hd)
      · intro d hd
        rcases List.mem_cons.mp hd with rfl | hd
        · exact hv
        · exact hz d hd
    · next hge =>
      have ih := ih hm fun d hd => ha d (by simp [hd])
      refine ⟨List.pairwise_cons.mpr ⟨?_, ih.1⟩, ?_⟩
      · intro d hd
        rcases Memory.mem_insert.mp hd with rfl | hd
        · show c.1 < a
          omega
        · exact hp.1 d hd
      · intro d hd
        rcases List.mem_cons.mp hd with rfl | hd
        · exact hz d (by simp)
        · exact ih.2 d hd

/-- Every write keeps the canonical form. -/
theorem Memory.wf_write {m : Memory} (h : m.wf) (a : Nat) (v : Word) : (m.write a v).wf := by
  unfold Memory.write
  split
  · exact Memory.wf_erase h a
  · next hv => exact Memory.wf_insert (Memory.wf_erase h a) a v hv fun c hc => (Memory.mem_erase.mp hc).2

theorem Memory.read_of_mem {m : Memory} (h : m.wf) {c : WordCell} (hc : c ∈ m) : m.read c.1 = c.2 := by
  induction m with
  | nil => simp at hc
  | cons d m ih =>
    obtain ⟨hp, hz⟩ := h
    rw [List.pairwise_cons] at hp
    rw [Memory.read_cons]
    rcases List.mem_cons.mp hc with rfl | hc
    · simp
    · have : d.1 ≠ c.1 := by have := hp.1 c hc; omega
      rw [if_neg this]
      exact ih ⟨hp.2, fun e he => hz e (by simp [he])⟩ hc

theorem Memory.mem_iff_read {m : Memory} (h : m.wf) (a : Nat) (v : Word) (hv : v ≠ 0) :
    (a, v) ∈ m ↔ m.read a = v := by
  constructor
  · intro hm; exact Memory.read_of_mem h hm
  · intro hr
    by_contra hn
    by_cases hex : ∃ c ∈ m, c.1 = a
    · obtain ⟨c, hc, rfl⟩ := hex
      have := Memory.read_of_mem h hc
      apply hn
      rw [← hr, this]
      exact hc
    · push Not at hex
      exact hv (hr ▸ Memory.read_of_not_mem m a hex)

/-- Two canonical memories that read alike everywhere are the same data. -/
theorem Memory.ext_of_read {m n : Memory} (hm : m.wf) (hn : n.wf) (h : ∀ a, m.read a = n.read a) : m = n := by
  apply List.Pairwise.eq_of_mem_iff (r := fun c d : WordCell => c.1 < d.1) hm.1 hn.1
  rintro ⟨a, v⟩
  by_cases hv : v = 0
  · exact ⟨fun hc => absurd hv (hm.2 _ hc), fun hc => absurd hv (hn.2 _ hc)⟩
  · rw [Memory.mem_iff_read hm a v hv, Memory.mem_iff_read hn a v hv, h]

/-! ### The image `load_program` stores -/

theorem Memory.mem_ofWords {a : Nat} {ws : List Word} {c : WordCell} (h : c ∈ Memory.ofWords a ws) :
    a ≤ c.1 ∧ c.1 < a + ws.length ∧ c.2 ≠ 0 := by
  induction ws generalizing a with
  | nil => simp [Memory.ofWords] at h
  | cons w ws ih =>
    unfold Memory.ofWords at h
    simp only [List.length_cons]
    split at h
    · obtain ⟨h₁, h₂, h₃⟩ := ih h
      exact ⟨by omega, by omega, h₃⟩
    · next hw =>
      rcases List.mem_cons.mp h with rfl | h
      · exact ⟨le_refl _, by simp, hw⟩
      · obtain ⟨h₁, h₂, h₃⟩ := ih h
        exact ⟨by omega, by omega, h₃⟩

theorem Memory.wf_ofWords (a : Nat) (ws : List Word) : (Memory.ofWords a ws).wf := by
  refine ⟨?_, fun c hc => (Memory.mem_ofWords hc).2.2⟩
  induction ws generalizing a with
  | nil => simp [Memory.ofWords]
  | cons w ws ih =>
    unfold Memory.ofWords
    split
    · exact ih _
    · refine List.pairwise_cons.mpr ⟨fun c hc => ?_, ih _⟩
      have := (Memory.mem_ofWords hc).1
      show a < c.1
      omega

/-- `M[a + k]` is the k-th word of the image, and 0 past its end (R37). -/
theorem Memory.read_ofWords (a k : Nat) (ws : List Word) :
    (Memory.ofWords a ws).read (a + k) = ws.getD k 0 := by
  induction ws generalizing a k with
  | nil => simp [Memory.ofWords]
  | cons w ws ih =>
    unfold Memory.ofWords
    cases k with
    | zero =>
      split
      · next hw =>
        rw [Memory.read_of_not_mem _ _ fun c hc => by have := (Memory.mem_ofWords hc).1; omega]
        simp [hw]
      · simp [Memory.read_cons]
    | succ k =>
      have := ih (a + 1) k
      rw [show a + 1 + k = a + (k + 1) by omega] at this
      split
      · simpa using this
      · rw [Memory.read_cons, if_neg (by simp), this]
        simp

end Sys2Proof.Machine
end

