-- ==== Sys2Proof/Laws/State.lean ====
section
/-! SUPPORT. One lemma per field per update of State, so that no proof unfolds a record update, and the reads of
registers after each update. -/

namespace Sys2Proof.Machine

/-! ### `State.setReg` -/

@[simp] theorem State.setReg_cfg (s : State) (i : RegIdx) (v : Word) : (s.setReg i v).cfg = s.cfg := rfl
@[simp] theorem State.setReg_pc (s : State) (i : RegIdx) (v : Word) : (s.setReg i v).pc = s.pc := rfl
@[simp] theorem State.setReg_flags (s : State) (i : RegIdx) (v : Word) : (s.setReg i v).flags = s.flags := rfl
@[simp] theorem State.setReg_frame (s : State) (i : RegIdx) (v : Word) : (s.setReg i v).frame = s.frame := rfl
@[simp] theorem State.setReg_runState (s : State) (i : RegIdx) (v : Word) : (s.setReg i v).runState = s.runState := rfl
@[simp] theorem State.setReg_mem (s : State) (i : RegIdx) (v : Word) : (s.setReg i v).mem = s.mem := rfl
@[simp] theorem State.setReg_console (s : State) (i : RegIdx) (v : Word) : (s.setReg i v).console = s.console := rfl

/-! ### `State.setSp` -/

@[simp] theorem State.setSp_cfg (s : State) (v : Word) : (s.setSp v).cfg = s.cfg := rfl
@[simp] theorem State.setSp_pc (s : State) (v : Word) : (s.setSp v).pc = s.pc := rfl
@[simp] theorem State.setSp_flags (s : State) (v : Word) : (s.setSp v).flags = s.flags := rfl
@[simp] theorem State.setSp_frame (s : State) (v : Word) : (s.setSp v).frame = s.frame := rfl
@[simp] theorem State.setSp_runState (s : State) (v : Word) : (s.setSp v).runState = s.runState := rfl
@[simp] theorem State.setSp_mem (s : State) (v : Word) : (s.setSp v).mem = s.mem := rfl
@[simp] theorem State.setSp_console (s : State) (v : Word) : (s.setSp v).console = s.console := rfl

/-! ### `State.setMem` -/

@[simp] theorem State.setMem_cfg (s : State) (m : Memory) : (s.setMem m).cfg = s.cfg := rfl
@[simp] theorem State.setMem_pc (s : State) (m : Memory) : (s.setMem m).pc = s.pc := rfl
@[simp] theorem State.setMem_flags (s : State) (m : Memory) : (s.setMem m).flags = s.flags := rfl
@[simp] theorem State.setMem_frame (s : State) (m : Memory) : (s.setMem m).frame = s.frame := rfl
@[simp] theorem State.setMem_runState (s : State) (m : Memory) : (s.setMem m).runState = s.runState := rfl
@[simp] theorem State.setMem_console (s : State) (m : Memory) : (s.setMem m).console = s.console := rfl
@[simp] theorem State.setMem_regs (s : State) (m : Memory) : (s.setMem m).regs = s.regs := rfl
@[simp] theorem State.setMem_mem (s : State) (m : Memory) : (s.setMem m).mem = m := rfl
@[simp] theorem State.setMem_reg (s : State) (m : Memory) (q : RegIdx) : (s.setMem m).reg q = s.reg q := rfl
@[simp] theorem State.setMem_sp (s : State) (m : Memory) : (s.setMem m).sp = s.sp := rfl
@[simp] theorem State.setMem_site (s : State) (m : Memory) : (s.setMem m).site = s.site := rfl

/-! ### `State.setPc` -/

@[simp] theorem State.setPc_cfg (s : State) (v : Word) : (s.setPc v).cfg = s.cfg := rfl
@[simp] theorem State.setPc_pc (s : State) (v : Word) : (s.setPc v).pc = v := rfl
@[simp] theorem State.setPc_flags (s : State) (v : Word) : (s.setPc v).flags = s.flags := rfl
@[simp] theorem State.setPc_frame (s : State) (v : Word) : (s.setPc v).frame = s.frame := rfl
@[simp] theorem State.setPc_runState (s : State) (v : Word) : (s.setPc v).runState = s.runState := rfl
@[simp] theorem State.setPc_mem (s : State) (v : Word) : (s.setPc v).mem = s.mem := rfl
@[simp] theorem State.setPc_console (s : State) (v : Word) : (s.setPc v).console = s.console := rfl
@[simp] theorem State.setPc_regs (s : State) (v : Word) : (s.setPc v).regs = s.regs := rfl
@[simp] theorem State.setPc_reg (s : State) (v : Word) (q : RegIdx) : (s.setPc v).reg q = s.reg q := rfl
@[simp] theorem State.setPc_sp (s : State) (v : Word) : (s.setPc v).sp = s.sp := rfl

/-! ### `State.keepRunning` -/

@[simp] theorem State.keepRunning_cfg (s : State) : s.keepRunning.cfg = s.cfg := rfl
@[simp] theorem State.keepRunning_pc (s : State) : s.keepRunning.pc = s.pc := rfl
@[simp] theorem State.keepRunning_flags (s : State) : s.keepRunning.flags = s.flags := rfl
@[simp] theorem State.keepRunning_frame (s : State) : s.keepRunning.frame = s.frame := rfl
@[simp] theorem State.keepRunning_runState (s : State) : s.keepRunning.runState = .running := rfl
@[simp] theorem State.keepRunning_mem (s : State) : s.keepRunning.mem = s.mem := rfl
@[simp] theorem State.keepRunning_console (s : State) : s.keepRunning.console = s.console := rfl
@[simp] theorem State.keepRunning_regs (s : State) : s.keepRunning.regs = s.regs := rfl
@[simp] theorem State.keepRunning_reg (s : State) (q : RegIdx) : s.keepRunning.reg q = s.reg q := rfl
@[simp] theorem State.keepRunning_sp (s : State) : s.keepRunning.sp = s.sp := rfl

/-! ### `State.halt` -/

@[simp] theorem State.halt_cfg (s : State) (r : HaltReason) : (s.halt r).cfg = s.cfg := rfl
@[simp] theorem State.halt_pc (s : State) (r : HaltReason) : (s.halt r).pc = s.pc := rfl
@[simp] theorem State.halt_flags (s : State) (r : HaltReason) : (s.halt r).flags = s.flags := rfl
@[simp] theorem State.halt_frame (s : State) (r : HaltReason) : (s.halt r).frame = s.frame := rfl
@[simp] theorem State.halt_runState (s : State) (r : HaltReason) : (s.halt r).runState = .halted r := rfl
@[simp] theorem State.halt_mem (s : State) (r : HaltReason) : (s.halt r).mem = s.mem := rfl
@[simp] theorem State.halt_console (s : State) (r : HaltReason) : (s.halt r).console = s.console := rfl
@[simp] theorem State.halt_regs (s : State) (r : HaltReason) : (s.halt r).regs = s.regs := rfl
@[simp] theorem State.halt_reg (s : State) (r : HaltReason) (q : RegIdx) : (s.halt r).reg q = s.reg q := rfl
@[simp] theorem State.halt_sp (s : State) (r : HaltReason) : (s.halt r).sp = s.sp := rfl

/-! ### `State.consoleOut` -/

@[simp] theorem State.consoleOut_cfg (s : State) (e : ConsoleEvent) : (s.consoleOut e).cfg = s.cfg := rfl
@[simp] theorem State.consoleOut_pc (s : State) (e : ConsoleEvent) : (s.consoleOut e).pc = s.pc := rfl
@[simp] theorem State.consoleOut_flags (s : State) (e : ConsoleEvent) : (s.consoleOut e).flags = s.flags := rfl
@[simp] theorem State.consoleOut_frame (s : State) (e : ConsoleEvent) : (s.consoleOut e).frame = s.frame := rfl
@[simp] theorem State.consoleOut_runState (s : State) (e : ConsoleEvent) : (s.consoleOut e).runState = s.runState := rfl
@[simp] theorem State.consoleOut_mem (s : State) (e : ConsoleEvent) : (s.consoleOut e).mem = s.mem := rfl
@[simp] theorem State.consoleOut_console (s : State) (e : ConsoleEvent) :
    (s.consoleOut e).console = ⟨s.console.answers, s.console.draws, s.console.events ++ [e]⟩ := rfl
@[simp] theorem State.consoleOut_regs (s : State) (e : ConsoleEvent) : (s.consoleOut e).regs = s.regs := rfl
@[simp] theorem State.consoleOut_reg (s : State) (e : ConsoleEvent) (q : RegIdx) : (s.consoleOut e).reg q = s.reg q := rfl
@[simp] theorem State.consoleOut_sp (s : State) (e : ConsoleEvent) : (s.consoleOut e).sp = s.sp := rfl

/-! ### Registers after a register write -/

theorem State.reg_setReg (s : State) (i q : RegIdx) (v : Word) :
    (s.setReg i v).reg q = if q = i then v else s.reg q := by
  simp only [State.reg, State.setReg, Vector.getElem_set, Fin.ext_iff, eq_comm]

@[simp] theorem State.reg_setReg_same (s : State) (i : RegIdx) (v : Word) : (s.setReg i v).reg i = v := by
  simp [State.reg_setReg]

theorem State.reg_setReg_other (s : State) (i q : RegIdx) (v : Word) (h : q ≠ i) :
    (s.setReg i v).reg q = s.reg q := by
  simp [State.reg_setReg, h]

theorem State.reg_setSp (s : State) (q : RegIdx) (v : Word) :
    (s.setSp v).reg q = if q = spReg then v else s.reg q := State.reg_setReg s spReg q v

@[simp] theorem State.sp_setSp (s : State) (v : Word) : (s.setSp v).sp = v := State.reg_setReg_same s spReg v

theorem State.sp_eq_reg (s : State) : s.sp = s.reg spReg := rfl

theorem State.sp_setReg (s : State) (i : RegIdx) (v : Word) :
    (s.setReg i v).sp = if spReg = i then v else s.sp := State.reg_setReg s i spReg v

@[simp] theorem State.site_setReg (s : State) (i : RegIdx) (v : Word) : (s.setReg i v).site = s.site := rfl
@[simp] theorem State.site_setSp (s : State) (v : Word) : (s.setSp v).site = s.site := rfl

/-! ### The console's input -/

@[simp] theorem State.consoleIn_cfg (s : State) : s.consoleIn.2.cfg = s.cfg := by
  unfold State.consoleIn; split <;> rfl
@[simp] theorem State.consoleIn_regs (s : State) : s.consoleIn.2.regs = s.regs := by
  unfold State.consoleIn; split <;> rfl
@[simp] theorem State.consoleIn_pc (s : State) : s.consoleIn.2.pc = s.pc := by
  unfold State.consoleIn; split <;> rfl
@[simp] theorem State.consoleIn_flags (s : State) : s.consoleIn.2.flags = s.flags := by
  unfold State.consoleIn; split <;> rfl
@[simp] theorem State.consoleIn_frame (s : State) : s.consoleIn.2.frame = s.frame := by
  unfold State.consoleIn; split <;> rfl
@[simp] theorem State.consoleIn_runState (s : State) : s.consoleIn.2.runState = s.runState := by
  unfold State.consoleIn; split <;> rfl
@[simp] theorem State.consoleIn_mem (s : State) : s.consoleIn.2.mem = s.mem := by
  unfold State.consoleIn; split <;> rfl
@[simp] theorem State.consoleIn_events (s : State) : s.consoleIn.2.console.events = s.console.events := by
  unfold State.consoleIn; split <;> rfl
@[simp] theorem State.consoleIn_reg (s : State) (q : RegIdx) : s.consoleIn.2.reg q = s.reg q := by
  simp [State.reg]

/-- Where the host's next answer is listed, it is what the draw yields, and it is taken. -/
theorem State.consoleIn_of_answer (s : State) (v : Word) (rest : List Word) (h : s.console.answers = v :: rest) :
    s.consoleIn = (v, { s with console := { s.console with answers := rest } }) := by
  unfold State.consoleIn; rw [h]

/-- Where none is listed, the draw yields the free value and counts it. -/
theorem State.consoleIn_of_no_answer (s : State) (h : s.console.answers = []) :
    s.consoleIn = (Config.consoleAnswer s.console.draws,
      { s with console := { s.console with draws := s.console.draws + 1 } }) := by
  unfold State.consoleIn; rw [h]

end Sys2Proof.Machine
end

