-- ==== Sys2Proof/Laws/Ops.lean ====
section
/-! SUPPORT. One lemma per shared operation that says once everything it can do; proofs cite these instead of
unfolding the operation. -/

namespace Sys2Proof.Machine

/-! ### The end of a handler -/

@[simp] theorem finish_ok (s : State) : finish (.ok s) = .next s.keepRunning := rfl
@[simp] theorem finish_error (f : Fault) : finish (.error f) = .fault f := rfl
@[simp] theorem raise_eq (f : Fault) : raise f = .error f := rfl

theorem finish_eq_next_iff {r : Except Fault State} {t : State} :
    finish r = .next t ↔ ∃ u, r = .ok u ∧ t = u.keepRunning := by
  cases r <;> simp [eq_comm]

theorem finish_eq_fault_iff {r : Except Fault State} {f : Fault} : finish r = .fault f ↔ r = .error f := by
  cases r <;> simp

/-! ### Memory accesses -/

theorem State.memRead_ok (s : State) (a : Word) (h : a.toNat < s.cfg.memSize) :
    s.memRead a = .ok (s.mem.read a.toNat) := if_pos h

theorem State.memRead_error (s : State) (a : Word) (h : s.cfg.memSize ≤ a.toNat) :
    s.memRead a = .error (.boundsMem a s.site) := if_neg (Nat.not_lt.mpr h)

theorem State.memRead_eq_ok_iff {s : State} {a v : Word} :
    s.memRead a = .ok v ↔ a.toNat < s.cfg.memSize ∧ v = s.mem.read a.toNat := by
  unfold State.memRead State.memReadAt
  split <;> simp_all [eq_comm]

theorem State.memWrite_ok (s : State) (a v : Word) (h : a.toNat < s.cfg.memSize) :
    s.memWrite a v = .ok (s.setMem (s.mem.write a.toNat v)) := if_pos h

theorem State.memWrite_error (s : State) (a v : Word) (h : s.cfg.memSize ≤ a.toNat) :
    s.memWrite a v = .error (.boundsMem a s.site) := if_neg (Nat.not_lt.mpr h)

theorem State.memWrite_eq_ok_iff {s t : State} {a v : Word} :
    s.memWrite a v = .ok t ↔ a.toNat < s.cfg.memSize ∧ t = s.setMem (s.mem.write a.toNat v) := by
  unfold State.memWrite
  split <;> simp_all [eq_comm]

/-! ### The checked register write -/

theorem State.writeRegAt_ok (s : State) (n : Nat) (v : Word) (h : n < 16) :
    s.writeRegAt n v = .ok (s.setReg ⟨n, h⟩ v) := dif_pos h

theorem State.writeRegAt_error (s : State) (n : Nat) (v : Word) (h : 16 ≤ n) :
    s.writeRegAt n v = .error (.boundsReg n s.site) := dif_neg (Nat.not_lt.mpr h)

/-! ### Push -/

theorem State.pushWord_ok (s : State) (f : State → Word) (h : (s.sp - 1).toNat < s.cfg.memSize) :
    s.pushWord f = .ok ((s.setSp (s.sp - 1)).setMem
      (s.mem.write (s.sp - 1).toNat (f (s.setSp (s.sp - 1))))) := by
  unfold State.pushWord
  simp only [State.sp_setSp]
  rw [State.memWrite_ok _ _ _ (by simpa using h)]
  simp

theorem State.pushWord_error (s : State) (f : State → Word) (h : s.cfg.memSize ≤ (s.sp - 1).toNat) :
    s.pushWord f = .error (.boundsMem (s.sp - 1) s.site) := by
  unfold State.pushWord
  simp only [State.sp_setSp]
  rw [State.memWrite_error _ _ _ (by simpa using h)]
  simp

theorem State.pushWord_eq_ok {s t : State} {f : State → Word} (h : s.pushWord f = .ok t) :
    (s.sp - 1).toNat < s.cfg.memSize ∧
      t = (s.setSp (s.sp - 1)).setMem (s.mem.write (s.sp - 1).toNat (f (s.setSp (s.sp - 1)))) := by
  by_cases hb : (s.sp - 1).toNat < s.cfg.memSize
  · rw [State.pushWord_ok s f hb] at h
    exact ⟨hb, (Except.ok.inj h).symm⟩
  · rw [State.pushWord_error s f (Nat.not_lt.mp hb)] at h
    cases h

/-! ### Pop -/

theorem State.popInto_error_read (s : State) (reg : RegIdx) (value : Word) (h : s.cfg.memSize ≤ s.sp.toNat) :
    s.popInto reg value = .error (.boundsMem s.sp s.site) := by
  unfold State.popInto
  rw [State.memRead_error s _ h]
  rfl

/-- `pop` whose read is in bounds, in terms of the stack pointer `p` it sees after the register write. -/
theorem State.popInto_ok (s : State) (reg : RegIdx) (value p : Word) (hr : s.sp.toNat < s.cfg.memSize)
    (hp : p = (s.setReg reg (s.mem.read s.sp.toNat + value)).sp) (hw : p.toNat < s.cfg.memSize) :
    s.popInto reg value =
      .ok (((s.setReg reg (s.mem.read s.sp.toNat + value)).setMem (s.mem.write p.toNat 0)).setSp (p + 1)) := by
  unfold State.popInto
  rw [State.memRead_ok s _ hr]
  simp only
  rw [← hp, State.memWrite_ok _ _ _ (by simpa using hw)]
  simp only [State.setReg_mem]
  congr 2
  rw [hp]
  rfl

theorem State.popInto_error_write (s : State) (reg : RegIdx) (value p : Word) (hr : s.sp.toNat < s.cfg.memSize)
    (hp : p = (s.setReg reg (s.mem.read s.sp.toNat + value)).sp) (hw : s.cfg.memSize ≤ p.toNat) :
    s.popInto reg value = .error (.boundsMem p s.site) := by
  unfold State.popInto
  rw [State.memRead_ok s _ hr]
  simp only
  rw [← hp, State.memWrite_error _ _ _ (by simpa using hw)]
  simp

theorem State.popInto_eq_ok {s t : State} {reg : RegIdx} {value : Word} (h : s.popInto reg value = .ok t) :
    ∃ p, p = (s.setReg reg (s.mem.read s.sp.toNat + value)).sp ∧ s.sp.toNat < s.cfg.memSize ∧
      p.toNat < s.cfg.memSize ∧
      t = ((s.setReg reg (s.mem.read s.sp.toNat + value)).setMem (s.mem.write p.toNat 0)).setSp (p + 1) := by
  by_cases hr : s.sp.toNat < s.cfg.memSize
  · by_cases hw : (s.setReg reg (s.mem.read s.sp.toNat + value)).sp.toNat < s.cfg.memSize
    · rw [State.popInto_ok s reg value _ hr rfl hw] at h
      exact ⟨_, rfl, hr, hw, (Except.ok.inj h).symm⟩
    · rw [State.popInto_error_write s reg value _ hr rfl (Nat.not_lt.mp hw)] at h
      cases h
  · rw [State.popInto_error_read s reg value (Nat.not_lt.mp hr)] at h
    cases h

/-! ### Jumps and return -/

theorem State.jumpAndPush_ok (s : State) (value : Word) (h : (s.sp - 1).toNat < s.cfg.memSize) :
    s.jumpAndPush value = .ok (((s.setSp (s.sp - 1)).setMem
      (s.mem.write (s.sp - 1).toNat s.pc)).setPc value) := by
  unfold State.jumpAndPush
  rw [State.pushWord_ok s _ h]
  rfl

theorem State.jumpAndPush_error (s : State) (value : Word) (h : s.cfg.memSize ≤ (s.sp - 1).toNat) :
    s.jumpAndPush value = .error (.boundsMem (s.sp - 1) s.site) := by
  unfold State.jumpAndPush
  rw [State.pushWord_error s _ h]
  rfl

theorem State.jumpAndPush_eq_ok {s t : State} {value : Word} (h : s.jumpAndPush value = .ok t) :
    (s.sp - 1).toNat < s.cfg.memSize ∧ t = ((s.setSp (s.sp - 1)).setMem
      (s.mem.write (s.sp - 1).toNat s.pc)).setPc value := by
  by_cases hb : (s.sp - 1).toNat < s.cfg.memSize
  · rw [State.jumpAndPush_ok s value hb] at h
    exact ⟨hb, (Except.ok.inj h).symm⟩
  · rw [State.jumpAndPush_error s value (Nat.not_lt.mp hb)] at h
    cases h

@[simp] theorem State.jumpIf_true (s : State) (value : Word) : s.jumpIf true value = s.jumpAndPush value := rfl
@[simp] theorem State.jumpIf_false (s : State) (value : Word) : s.jumpIf false value = .ok s := rfl

theorem State.returnVia_ok (s : State) (value : Word) (h : s.sp.toNat < s.cfg.memSize) :
    s.returnVia value = .ok ((s.setPc (s.mem.read s.sp.toNat)).setSp (s.sp + value + 1)) := by
  unfold State.returnVia
  rw [State.memRead_ok s _ h]
  rfl

theorem State.returnVia_error (s : State) (value : Word) (h : s.cfg.memSize ≤ s.sp.toNat) :
    s.returnVia value = .error (.boundsMem s.sp s.site) := by
  unfold State.returnVia
  rw [State.memRead_error s _ h]
  rfl

/-! ### The jump conditions, on the signed reading of `flags` -/

theorem testNeg_iff (f : Word) : testNeg f = true ↔ f.toInt < 0 := by simp [testNeg]

theorem testZero_iff (f : Word) : testZero f = true ↔ f.toInt = 0 := by
  rw [testZero, beq_iff_eq, ← BitVec.toInt_inj]
  simp

theorem condNe_iff (f : Word) : condNe f = true ↔ f.toInt ≠ 0 := by
  simp only [condNe, Bool.not_eq_true', Bool.eq_false_iff, ne_eq, testZero_iff]

theorem condEq_iff (f : Word) : condEq f = true ↔ f.toInt = 0 := testZero_iff f

theorem condLe_iff (f : Word) : condLe f = true ↔ f.toInt ≤ 0 := by
  simp only [condLe, Bool.or_eq_true, testNeg_iff, testZero_iff]
  omega

theorem condLt_iff (f : Word) : condLt f = true ↔ f.toInt < 0 := testNeg_iff f

theorem condGe_iff (f : Word) : condGe f = true ↔ 0 ≤ f.toInt := by
  simp only [condGe, Bool.not_eq_true', Bool.eq_false_iff, ne_eq, testNeg_iff]
  omega

theorem condGt_iff (f : Word) : condGt f = true ↔ 0 < f.toInt := by
  simp only [condGt, Bool.and_eq_true, Bool.not_eq_true', Bool.eq_false_iff, ne_eq, testNeg_iff, testZero_iff]
  omega

/-! ### Multiply and load -/

theorem mul64_false (a b : Word) : mul64 false a b = BitVec.ofNat 64 (a.toNat * b.toNat) := rfl
theorem mul64_true (a b : Word) : mul64 true a b = BitVec.ofInt 64 (a.toInt * b.toInt) := rfl

theorem State.multiply_ok (s : State) (inReg outReg : RegIdx) (value : Word) (h : inReg.val + 1 < 16) :
    s.multiply inReg outReg value =
      .ok ((s.setReg inReg (lowWord (mul64 s.cfg.mulSigned (s.reg inReg) (s.regPlus outReg value)))).setReg
        ⟨inReg.val + 1, h⟩ (highWord (mul64 s.cfg.mulSigned (s.reg inReg) (s.regPlus outReg value)))) := by
  unfold State.multiply
  exact State.writeRegAt_ok _ _ _ h

theorem State.multiply_error (s : State) (inReg outReg : RegIdx) (value : Word) (h : 16 ≤ inReg.val + 1) :
    s.multiply inReg outReg value = .error (.boundsReg (inReg.val + 1) s.site) := by
  unfold State.multiply
  exact State.writeRegAt_error _ _ _ h

theorem State.loadInto_ok (s : State) (inReg outReg : RegIdx) (value : Word)
    (h : (s.effectiveAddress outReg value).toNat < s.cfg.memSize) :
    s.loadInto inReg outReg value =
      .ok (s.setReg inReg (s.mem.read (s.effectiveAddress outReg value).toNat)) := by
  unfold State.loadInto
  rw [State.memRead_ok s _ h]

theorem State.loadInto_error (s : State) (inReg outReg : RegIdx) (value : Word)
    (h : s.cfg.memSize ≤ (s.effectiveAddress outReg value).toNat) :
    s.loadInto inReg outReg value = .error (.boundsMem (s.effectiveAddress outReg value) s.site) := by
  unfold State.loadInto
  rw [State.memRead_error s _ h]
  rfl

/-! ### Every fault an operation can raise -/

theorem State.pushWord_eq_error {s : State} {f : State → Word} {e : Fault} (h : s.pushWord f = .error e) :
    s.cfg.memSize ≤ (s.sp - 1).toNat ∧ e = .boundsMem (s.sp - 1) s.site := by
  by_cases hb : (s.sp - 1).toNat < s.cfg.memSize
  · rw [State.pushWord_ok s f hb] at h
    cases h
  · rw [State.pushWord_error s f (Nat.not_lt.mp hb)] at h
    exact ⟨Nat.not_lt.mp hb, (Except.error.inj h).symm⟩

theorem State.popInto_eq_error {s : State} {reg : RegIdx} {value : Word} {e : Fault}
    (h : s.popInto reg value = .error e) :
    (s.cfg.memSize ≤ s.sp.toNat ∧ e = .boundsMem s.sp s.site) ∨
      (s.sp.toNat < s.cfg.memSize ∧ reg = spReg ∧
        s.cfg.memSize ≤ (s.mem.read s.sp.toNat + value).toNat ∧
        e = .boundsMem (s.mem.read s.sp.toNat + value) s.site) := by
  by_cases hr : s.sp.toNat < s.cfg.memSize
  · by_cases hw : (s.setReg reg (s.mem.read s.sp.toNat + value)).sp.toNat < s.cfg.memSize
    · rw [State.popInto_ok s reg value _ hr rfl hw] at h
      cases h
    · rw [State.popInto_error_write s reg value _ hr rfl (Nat.not_lt.mp hw)] at h
      by_cases hreg : spReg = reg
      · rw [State.sp_setReg, if_pos hreg] at h hw
        exact .inr ⟨hr, hreg.symm, Nat.not_lt.mp hw, (Except.error.inj h).symm⟩
      · rw [State.sp_setReg, if_neg hreg] at hw
        exact absurd hr hw
  · rw [State.popInto_error_read s reg value (Nat.not_lt.mp hr)] at h
    exact .inl ⟨Nat.not_lt.mp hr, (Except.error.inj h).symm⟩

theorem State.jumpAndPush_eq_error {s : State} {value : Word} {e : Fault} (h : s.jumpAndPush value = .error e) :
    s.cfg.memSize ≤ (s.sp - 1).toNat ∧ e = .boundsMem (s.sp - 1) s.site := by
  by_cases hb : (s.sp - 1).toNat < s.cfg.memSize
  · rw [State.jumpAndPush_ok s value hb] at h
    cases h
  · rw [State.jumpAndPush_error s value (Nat.not_lt.mp hb)] at h
    exact ⟨Nat.not_lt.mp hb, (Except.error.inj h).symm⟩

theorem State.jumpIf_eq_error {s : State} {taken : Bool} {value : Word} {e : Fault}
    (h : s.jumpIf taken value = .error e) :
    taken = true ∧ s.cfg.memSize ≤ (s.sp - 1).toNat ∧ e = .boundsMem (s.sp - 1) s.site := by
  cases taken
  · simp at h
  · exact ⟨rfl, State.jumpAndPush_eq_error h⟩

theorem State.jumpIf_eq_ok {s t : State} {taken : Bool} {value : Word} (h : s.jumpIf taken value = .ok t) :
    (taken = false ∧ t = s) ∨ (taken = true ∧ s.jumpAndPush value = .ok t) := by
  cases taken
  · exact .inl ⟨rfl, (Except.ok.inj h).symm⟩
  · exact .inr ⟨rfl, h⟩

theorem State.returnVia_eq_ok {s t : State} {value : Word} (h : s.returnVia value = .ok t) :
    s.sp.toNat < s.cfg.memSize ∧ t = (s.setPc (s.mem.read s.sp.toNat)).setSp (s.sp + value + 1) := by
  by_cases hr : s.sp.toNat < s.cfg.memSize
  · rw [State.returnVia_ok s value hr] at h
    exact ⟨hr, (Except.ok.inj h).symm⟩
  · rw [State.returnVia_error s value (Nat.not_lt.mp hr)] at h
    cases h

theorem State.returnVia_eq_error {s : State} {value : Word} {e : Fault} (h : s.returnVia value = .error e) :
    s.cfg.memSize ≤ s.sp.toNat ∧ e = .boundsMem s.sp s.site := by
  by_cases hr : s.sp.toNat < s.cfg.memSize
  · rw [State.returnVia_ok s value hr] at h
    cases h
  · rw [State.returnVia_error s value (Nat.not_lt.mp hr)] at h
    exact ⟨Nat.not_lt.mp hr, (Except.error.inj h).symm⟩

theorem State.multiply_eq_error {s : State} {inReg outReg : RegIdx} {value : Word} {e : Fault}
    (h : s.multiply inReg outReg value = .error e) : inReg = 15 ∧ e = .boundsReg 16 s.site := by
  by_cases hr : inReg.val + 1 < 16
  · rw [State.multiply_ok s inReg outReg value hr] at h
    cases h
  · have hi : inReg.val = 15 := by have := inReg.isLt; omega
    rw [State.multiply_error s inReg outReg value (Nat.not_lt.mp hr), hi] at h
    exact ⟨Fin.ext hi, (Except.error.inj h).symm⟩

theorem State.loadInto_eq_ok {s t : State} {inReg outReg : RegIdx} {value : Word}
    (h : s.loadInto inReg outReg value = .ok t) :
    (s.effectiveAddress outReg value).toNat < s.cfg.memSize ∧
      t = s.setReg inReg (s.mem.read (s.effectiveAddress outReg value).toNat) := by
  by_cases hr : (s.effectiveAddress outReg value).toNat < s.cfg.memSize
  · rw [State.loadInto_ok s inReg outReg value hr] at h
    exact ⟨hr, (Except.ok.inj h).symm⟩
  · rw [State.loadInto_error s inReg outReg value (Nat.not_lt.mp hr)] at h
    cases h

theorem State.loadInto_eq_error {s : State} {inReg outReg : RegIdx} {value : Word} {e : Fault}
    (h : s.loadInto inReg outReg value = .error e) :
    s.cfg.memSize ≤ (s.effectiveAddress outReg value).toNat ∧
      e = .boundsMem (s.effectiveAddress outReg value) s.site := by
  by_cases hr : (s.effectiveAddress outReg value).toNat < s.cfg.memSize
  · rw [State.loadInto_ok s inReg outReg value hr] at h
    cases h
  · rw [State.loadInto_error s inReg outReg value (Nat.not_lt.mp hr)] at h
    exact ⟨Nat.not_lt.mp hr, (Except.error.inj h).symm⟩

/-! ### A console read into a register -/

@[simp] theorem State.readConsoleInto_cfg (s : State) (r : RegIdx) : (s.readConsoleInto r).cfg = s.cfg := by
  simp [State.readConsoleInto]
@[simp] theorem State.readConsoleInto_pc (s : State) (r : RegIdx) : (s.readConsoleInto r).pc = s.pc := by
  simp [State.readConsoleInto]
@[simp] theorem State.readConsoleInto_flags (s : State) (r : RegIdx) : (s.readConsoleInto r).flags = s.flags := by
  simp [State.readConsoleInto]
@[simp] theorem State.readConsoleInto_frame (s : State) (r : RegIdx) : (s.readConsoleInto r).frame = s.frame := by
  simp [State.readConsoleInto]
@[simp] theorem State.readConsoleInto_mem (s : State) (r : RegIdx) : (s.readConsoleInto r).mem = s.mem := by
  simp [State.readConsoleInto]

theorem State.readConsoleInto_reg (s : State) (r q : RegIdx) :
    (s.readConsoleInto r).reg q = if q = r then s.consoleIn.1 else s.reg q := by
  simp [State.readConsoleInto, State.reg_setReg]

/-! ### The choice of a service -/

/-- Everything `serviceOf` can answer, on codes that are pairwise distinct. -/
theorem serviceOf_cases (c : SysCodes) (n : Int) :
    (serviceOf c n = .exit ∧ n = c.exit) ∨ (serviceOf c n = .readInt ∧ n = c.readInt) ∨
      (serviceOf c n = .printInt ∧ n = c.printInt) ∨ (serviceOf c n = .readChar ∧ n = c.readChar) ∨
      (serviceOf c n = .writeChar ∧ n = c.writeChar) ∨ (serviceOf c n = .unknown ∧ n ∉ c.toList) := by
  unfold serviceOf SysCodes.toList
  split_ifs <;> simp_all

end Sys2Proof.Machine
end

