-- ==== Sys2Proof/Laws/Exec.lean ====
section
/-! SUPPORT. One equation per instruction: its handler in terms of the shared operations, and what `exec` can answer. -/

namespace Sys2Proof.Machine

theorem exec_addi (r : RegIdx) (v : Word) (s : State) :
    exec (.addi r v) s = finish (.ok (s.setReg r (s.regPlus r v))) := rfl

theorem exec_lc (r : RegIdx) (v : Word) (s : State) :
    exec (.lc r v) s = finish (.ok (s.setReg r v)) := rfl

theorem exec_push (r : RegIdx) (v : Word) (s : State) :
    exec (.push r v) s = finish (s.pushWord fun s₁ => s₁.regPlus r v) := rfl

theorem exec_pop (r : RegIdx) (v : Word) (s : State) :
    exec (.pop r v) s = finish (s.popInto r v) := rfl

theorem exec_jmp (r : RegIdx) (v : Word) (s : State) :
    exec (.jmp r v) s = finish (s.jumpAndPush v) := rfl

theorem exec_jne (r : RegIdx) (v : Word) (s : State) :
    exec (.jne r v) s = finish (s.jumpIf (condNe s.flags) v) := rfl

theorem exec_jeq (r : RegIdx) (v : Word) (s : State) :
    exec (.jeq r v) s = finish (s.jumpIf (condEq s.flags) v) := rfl

theorem exec_jle (r : RegIdx) (v : Word) (s : State) :
    exec (.jle r v) s = finish (s.jumpIf (condLe s.flags) v) := rfl

theorem exec_jl (r : RegIdx) (v : Word) (s : State) :
    exec (.jl r v) s = finish (s.jumpIf (condLt s.flags) v) := rfl

theorem exec_jge (r : RegIdx) (v : Word) (s : State) :
    exec (.jge r v) s = finish (s.jumpIf (condGe s.flags) v) := rfl

theorem exec_jg (r : RegIdx) (v : Word) (s : State) :
    exec (.jg r v) s = finish (s.jumpIf (condGt s.flags) v) := rfl

theorem exec_ret (r : RegIdx) (v : Word) (s : State) :
    exec (.ret r v) s = finish (s.returnVia v) := rfl

theorem exec_mov (a b : RegIdx) (v : Word) (s : State) :
    exec (.mov a b v) s = finish (.ok (s.setReg a (s.regPlus b v))) := rfl

theorem exec_mul (a b : RegIdx) (v : Word) (s : State) :
    exec (.mul a b v) s = finish (s.multiply a b v) := rfl

theorem exec_loadr (a b : RegIdx) (v : Word) (s : State) :
    exec (.loadr a b v) s = finish (s.loadInto a b v) := rfl

theorem exec_syscall (r : RegIdx) (v : Word) (s : State) : exec (.syscall r v) s = execSyscall r v s := rfl

/-- A taken jump, conditional or not, is the common transfer of R150 to its target. -/
theorem exec_of_jumpTaken {i : Instr} {s : State} (h : JumpTaken i s.flags) :
    exec i s = finish (s.jumpAndPush i.value) := by
  cases i
  case jmp => rfl
  case jne => rw [exec_jne, (condNe_iff _).mpr h]; rfl
  case jeq => rw [exec_jeq, (condEq_iff _).mpr h]; rfl
  case jle => rw [exec_jle, (condLe_iff _).mpr h]; rfl
  case jl => rw [exec_jl, (condLt_iff _).mpr h]; rfl
  case jge => rw [exec_jge, (condGe_iff _).mpr h]; rfl
  case jg => rw [exec_jg, (condGt_iff _).mpr h]; rfl
  all_goals exact h.elim

/-- Everything `syscall` can do: one arm per service (R140). -/
theorem execSyscall_cases (r : RegIdx) (v : Word) (s : State) :
    (v.toInt = s.cfg.sys.exit ∧ execSyscall r v s = .next (s.halt .exit)) ∨
    ((v.toInt = s.cfg.sys.readInt ∨ v.toInt = s.cfg.sys.readChar) ∧
      execSyscall r v s = .next (s.readConsoleInto r).keepRunning) ∨
    (v.toInt = s.cfg.sys.printInt ∧ execSyscall r v s = .next (s.consoleOut (.outInt (s.reg r))).keepRunning) ∨
    (v.toInt = s.cfg.sys.writeChar ∧ execSyscall r v s = .next (s.consoleOut (.outChar (s.reg r))).keepRunning) ∨
    (v.toInt ∉ s.cfg.sys.toList ∧
      execSyscall r v s = .next ((s.consoleOut (.diag v)).halt (.unknownSyscall v.toInt))) := by
  unfold execSyscall
  rcases serviceOf_cases s.cfg.sys v.toInt with h | h | h | h | h | h <;> obtain ⟨hs, hv⟩ := h <;> rw [hs] <;>
    simp [hv]

/-- No handler refuses: every arm of `exec` has its meaning. -/
theorem exec_ne_refused (i : Instr) (s : State) (e : Refusal) : exec i s ≠ .refused e := by
  have hf : ∀ x, finish x ≠ .refused e := by intro x; cases x <;> simp
  cases i
  case syscall r v =>
    rw [exec_syscall]
    rcases execSyscall_cases r v s with h | h | h | h | h <;> rw [h.2] <;> simp
  case addi r v => rw [exec_addi]; exact hf _
  case lc r v => rw [exec_lc]; exact hf _
  case mov a b v => rw [exec_mov]; exact hf _
  all_goals exact hf _

end Sys2Proof.Machine
end

