-- ==== Sys2Proof/Laws/PerInstr.lean ====
section
/-! SUPPORT. Statements for all instructions, one lemma per constructor. -/

namespace Sys2Proof.Laws.OpcodeByte

/-- The opcode byte of an encoded instruction is the one the Command Table binds to its mnemonic (R71, R78, R84). -/
def Statement (i : Instr) : Prop := ∀ o : Opcodes, opcodeField (encode o i) = o.code i.mnemonic

theorem addi (r : RegIdx) (v : Word) : Statement (.addi r v) := fun _ => opcodeField_encodeRI _
theorem lc (r : RegIdx) (v : Word) : Statement (.lc r v) := fun _ => opcodeField_encodeRI _
theorem push (r : RegIdx) (v : Word) : Statement (.push r v) := fun _ => opcodeField_encodeRI _
theorem pop (r : RegIdx) (v : Word) : Statement (.pop r v) := fun _ => opcodeField_encodeRI _
theorem syscall (r : RegIdx) (v : Word) : Statement (.syscall r v) := fun _ => opcodeField_encodeRI _
theorem jmp (r : RegIdx) (v : Word) : Statement (.jmp r v) := fun _ => opcodeField_encodeRM _
theorem jne (r : RegIdx) (v : Word) : Statement (.jne r v) := fun _ => opcodeField_encodeRM _
theorem jeq (r : RegIdx) (v : Word) : Statement (.jeq r v) := fun _ => opcodeField_encodeRM _
theorem jle (r : RegIdx) (v : Word) : Statement (.jle r v) := fun _ => opcodeField_encodeRM _
theorem jl (r : RegIdx) (v : Word) : Statement (.jl r v) := fun _ => opcodeField_encodeRM _
theorem jge (r : RegIdx) (v : Word) : Statement (.jge r v) := fun _ => opcodeField_encodeRM _
theorem jg (r : RegIdx) (v : Word) : Statement (.jg r v) := fun _ => opcodeField_encodeRM _
theorem ret (r : RegIdx) (v : Word) : Statement (.ret r v) := fun _ => opcodeField_encodeRM _
theorem mov (a b : RegIdx) (v : Word) : Statement (.mov a b v) := fun _ => opcodeField_encodeRR _
theorem mul (a b : RegIdx) (v : Word) : Statement (.mul a b v) := fun _ => opcodeField_encodeRR _
theorem loadr (a b : RegIdx) (v : Word) : Statement (.loadr a b v) := fun _ => opcodeField_encodeRR _

end Sys2Proof.Laws.OpcodeByte
end

