-- ==== Sys2Proof/Laws/Step.lean ====
section
/-! SUPPORT. What fetch and the step can do, once: refused, out of bounds, illegal opcode, or one handler. -/

namespace Sys2Proof.Machine

theorem State.fetch_ok (s : State) (h : s.pc.toNat < s.cfg.memSize) :
    s.fetch = .ok (s.mem.read s.pc.toNat, { s with pc := s.pc + 1 }) := by
  unfold State.fetch State.memReadAt
  rw [if_pos h]

theorem State.fetch_error (s : State) (h : s.cfg.memSize ≤ s.pc.toNat) :
    s.fetch = .error (.boundsMem s.pc s.pc) := by
  unfold State.fetch State.memReadAt
  rw [if_neg (Nat.not_lt.mpr h)]

theorem State.startRefusal_eq_none_iff {s : State} : s.startRefusal = none ↔ s.Startable := by
  unfold State.startRefusal State.Startable
  split <;> simp_all

/-- After the advance, the executing word's address is the old `pc` (R102, R200). -/
theorem State.site_of_advanced (s : State) : ({ s with pc := s.pc + 1 } : State).site = s.pc :=
  BitVec.add_sub_cancel s.pc 1

theorem step_of_refusal {s : State} {r : Refusal} (h : s.startRefusal = some r) : step s = .refused r := by
  unfold step
  rw [h]

theorem step_of_fetch_error (s : State) (h : s.Startable) (hp : s.cfg.memSize ≤ s.pc.toNat) :
    step s = .fault (.boundsMem s.pc s.pc) := by
  unfold step
  rw [State.startRefusal_eq_none_iff.mpr h, State.fetch_error s hp]

theorem step_of_illegal (s : State) (h : s.Startable) (hp : s.pc.toNat < s.cfg.memSize) {op : BitVec 8}
    (hd : decode s.cfg.opc (s.mem.read s.pc.toNat) = .illegal op) : step s = .fault (.dispatch op s.pc) := by
  unfold step
  rw [State.startRefusal_eq_none_iff.mpr h, State.fetch_ok s hp]
  simp only [hd, State.site_of_advanced]

theorem step_of_instr (s : State) (h : s.Startable) (hp : s.pc.toNat < s.cfg.memSize) {i : Instr}
    (hd : decode s.cfg.opc (s.mem.read s.pc.toNat) = .instr i) : step s = exec i { s with pc := s.pc + 1 } := by
  unfold step
  rw [State.startRefusal_eq_none_iff.mpr h, State.fetch_ok s hp]
  simp only [hd]

/-- The word `withFetchWord` places is the one at `pc`. -/
theorem State.withFetchWord_read (s : State) (nbits w : Nat) :
    (s.withFetchWord nbits w).mem.read (s.withFetchWord nbits w).pc.toNat = BitVec.ofNat 32 (w % 2 ^ nbits) :=
  Memory.read_write_same _ _ _

/-- Everything a step that answers a next state has done (R100 to R106). -/
theorem step_eq_next {s t : State} (h : step s = .next t) :
    s.Startable ∧ s.pc.toNat < s.cfg.memSize ∧
      ∃ i, decode s.cfg.opc (s.mem.read s.pc.toNat) = .instr i ∧ exec i { s with pc := s.pc + 1 } = .next t := by
  unfold step at h
  split at h
  · cases h
  · next hs =>
    by_cases hb : s.pc.toNat < s.cfg.memSize
    · rw [State.fetch_ok s hb] at h
      simp only at h
      split at h
      · cases h
      · next i hi => exact ⟨State.startRefusal_eq_none_iff.mp hs, hb, i, hi, h⟩
    · rw [State.fetch_error s (Nat.not_lt.mp hb)] at h
      cases h

end Sys2Proof.Machine
end

