-- ==== Sys2Proof/Laws/Transactions.lean ====
section
/-! SUPPORT. What the host's transactions can do, once each, and the state construction and `load_program` leave. -/

namespace Sys2Proof.Machine

theorem State.construct_reg (c : Config) (r : RegIdx) :
    (State.construct c).reg r = if r = spReg then c.stackTop else 0 := by
  simp only [State.reg, State.construct, Vector.getElem_set, Vector.getElem_replicate, Fin.ext_iff]
  by_cases h : r.val = 14
  · simp [h]
  · rw [if_neg (fun h' => h h'.symm), if_neg (show ¬ r.val = spReg.val from h)]

@[simp] theorem State.loaded_cfg (s : State) (e : Word) (ws : List Word) : (s.loaded e ws).cfg = s.cfg := rfl
@[simp] theorem State.loaded_pc (s : State) (e : Word) (ws : List Word) : (s.loaded e ws).pc = e := rfl
@[simp] theorem State.loaded_flags (s : State) (e : Word) (ws : List Word) : (s.loaded e ws).flags = 0 := rfl
@[simp] theorem State.loaded_frame (s : State) (e : Word) (ws : List Word) :
    (s.loaded e ws).frame = s.cfg.stackTop := rfl
@[simp] theorem State.loaded_runState (s : State) (e : Word) (ws : List Word) :
    (s.loaded e ws).runState = .ready := rfl
@[simp] theorem State.loaded_mem (s : State) (e : Word) (ws : List Word) :
    (s.loaded e ws).mem = Memory.ofWords 0 ws := rfl

theorem State.loadProgram_nil (s : State) : s.loadProgram [] = .error .empty := rfl

theorem State.loadProgram_ok (s : State) (e : Word) (ws : List Word) (h : ws.length ≤ s.cfg.memSize) :
    s.loadProgram (e :: ws) = .ok (s.loaded e ws) := if_pos h

theorem State.loadProgram_tooLong (s : State) (e : Word) (ws : List Word) (h : s.cfg.memSize < ws.length) :
    s.loadProgram (e :: ws) = .error .tooLong := if_neg (Nat.not_le.mpr h)

theorem State.loadProgram_eq_ok {s t : State} {image : List Word} (h : s.loadProgram image = .ok t) :
    ∃ e ws, image = e :: ws ∧ ws.length ≤ s.cfg.memSize ∧ t = s.loaded e ws := by
  cases image with
  | nil => cases h
  | cons e ws =>
    by_cases hl : ws.length ≤ s.cfg.memSize
    · rw [State.loadProgram_ok s e ws hl] at h
      exact ⟨e, ws, rfl, hl, (Except.ok.inj h).symm⟩
    · rw [State.loadProgram_tooLong s e ws (Nat.not_le.mp hl)] at h
      cases h

theorem State.setFlags_of_startable (s : State) (v : Word) (h : s.Startable) :
    s.setFlags v = .ok { s with flags := v } := by
  unfold State.setFlags
  rw [State.startRefusal_eq_none_iff.mpr h]

theorem State.setFlags_of_refusal {s : State} {r : Refusal} (v : Word) (h : s.startRefusal = some r) :
    s.setFlags v = .error r := by
  unfold State.setFlags
  rw [h]

theorem State.execTransaction_of_fault {s : State} {f : Fault} (h : step s = .fault f) :
    s.execTransaction = (s.faultedWith f, .faulted f) := by
  unfold State.execTransaction
  rw [h]

theorem State.execTransaction_of_refused {s : State} {r : Refusal} (h : s.startRefusal = some r) :
    s.execTransaction = (s, .refused r) := by
  unfold State.execTransaction
  rw [step_of_refusal h]

theorem State.execTransaction_of_halt {s t : State} {r : HaltReason} (h : step s = .next t)
    (ht : t.runState = .halted r) : s.execTransaction = (t, .halted r) := by
  unfold State.execTransaction
  simp only [h, ht]

theorem State.execTransaction_of_running {s t : State} (h : step s = .next t) (ht : t.runState = .running) :
    s.execTransaction = (t, .continues) := by
  unfold State.execTransaction
  simp only [h, ht]

end Sys2Proof.Machine
end

