-- ==== Sys2Proof/Tests/Slice0.lean ====
section
/-! SUPPORT. Tests: what the checks refuse, words written out from the encoding, one-step vectors of
spec/95_test_vectors.md (named in each comment), and for each statement of Obligations.lean with hypotheses a witness
that meets them. Expected values are the spec's, never this model's answers. -/

namespace Sys2Proof.Tests

open Sys2Proof Sys2Proof.Machine

/-! ### Helpers -/

/-- `f` of the next state, if the outcome is one. -/
def after {α : Type} (f : State → α) : Host.Outcome State Fault Refusal → Option α
  | .next s => some (f s)
  | .fault _ => none
  | .refused _ => none

/-- The fault, if the outcome is one. -/
def faultOf : Host.Outcome State Fault Refusal → Option Fault
  | .next _ => none
  | .fault f => some f
  | .refused _ => none

/-- An outcome that shows a fault is that fault. -/
theorem eq_fault {o : Host.Outcome State Fault Refusal} {f : Fault} (h : faultOf o = some f) : o = .fault f := by
  cases o <;> simp_all [faultOf]

/-- An outcome that shows a next state is that next state. -/
theorem exists_next {α : Type} {o : Host.Outcome State Fault Refusal} {f : State → α} {v : α}
    (h : after f o = some v) : ∃ t, o = .next t ∧ f t = v := by
  cases o <;> simp_all [after]

/-- The state after `load_program([0, w])` on the default machine, then some registers and memory words changed: the
start of a single-instruction vector. -/
def start (w : Word) (rs : List (RegIdx × Word)) (ms : List (Nat × Word)) : State :=
  let s := State.reset.loaded 0 [w]
  let s := rs.foldl (fun s p => s.setReg p.1 p.2) s
  ms.foldl (fun s p => s.setMem (s.mem.write p.1 p.2)) s

/-- The same machine with `MUL_SIGNED = true`. -/
def signedMul (s : State) : State := { s with cfg := { s.cfg with mulSigned := true } }

/-- A machine of sixteen words after `load_program(image)` (V-fetch-2, V-jmp-3). -/
def small (entry : Word) (ws : List Word) : State :=
  (State.construct { Config.default with memSize := 16, stackTop := 15 }).loaded entry ws

/-! ### WellFormed refuses each ill-formed term -/

theorem test_wf_refuses_RI_above : Instr.wf (.addi 0 524288) = false := by decide
theorem test_wf_refuses_RI_below : Instr.wf (.lc 0 (-524289)) = false := by decide
theorem test_wf_refuses_RM_above : Instr.wf (.jmp 0 1048576) = false := by decide
theorem test_wf_refuses_RM_negative : Instr.wf (.ret 0 (-1)) = false := by decide
theorem test_wf_refuses_RR_above : Instr.wf (.mov 0 0 32768) = false := by decide
theorem test_wf_refuses_RR_below : Instr.wf (.loadr 0 0 (-32769)) = false := by decide
theorem test_wf_refuses_memory_of_one_word :
    ¬ Config.Wf { Config.default with memSize := 1, stackTop := 0 } := by decide
theorem test_wf_refuses_memory_above_32_bits :
    ¬ Config.Wf { Config.default with memSize := 2 ^ 32, stackTop := 0xFFFFFFFF } := by decide
theorem test_wf_refuses_stackTop_inside_memory : ¬ Config.Wf { Config.default with stackTop := 0xFFFFE } := by decide
theorem test_wf_refuses_equal_opcodes :
    ¬ Config.Wf { Config.default with opc := { Opcodes.default with lc := 3 } } := by decide
theorem test_wf_refuses_equal_services :
    ¬ Config.Wf { Config.default with sys := { SysCodes.default with readInt := 0 } } := by decide
theorem test_wf_refuses_service_beyond_20_bits :
    ¬ Config.Wf { Config.default with sys := { SysCodes.default with exit := 524288 } } := by decide
theorem test_wf_admits_both_stackTops :
    Config.Wf Config.default ∧ Config.Wf { Config.default with stackTop := 0x100000 } := by decide

/-! ### Decoding: one word of each instruction, opcode (R84), registers and operand written out bit by bit -/

theorem test_decode_addi : decode Opcodes.default 0b00000011001111111111111111111111 = .instr (.addi 3 (-1)) := by
  decide
theorem test_decode_lc : decode Opcodes.default 0b00001100011110000000000000000000 = .instr (.lc 7 (-524288)) := by
  decide
theorem test_decode_push : decode Opcodes.default 0b00100110111000000000000000000100 = .instr (.push 14 4) := by decide
theorem test_decode_pop : decode Opcodes.default 0b00100111000111111111111111111111 = .instr (.pop 1 (-1)) := by decide
theorem test_decode_syscall : decode Opcodes.default 0b00000001001100000000000001100100 = .instr (.syscall 3 100) := by
  decide
theorem test_decode_jmp : decode Opcodes.default 0b00101110111111111111111111111111 = .instr (.jmp 15 1048575) := by
  decide
theorem test_decode_jne : decode Opcodes.default 0b00101111101000000000000000000100 = .instr (.jne 10 4) := by decide
theorem test_decode_jeq : decode Opcodes.default 0b00110000000010000000000000000000 = .instr (.jeq 0 524288) := by decide
theorem test_decode_jle : decode Opcodes.default 0b00110001000000000000000000001001 = .instr (.jle 0 9) := by decide
theorem test_decode_jl : decode Opcodes.default 0b00110010000000000000000000001001 = .instr (.jl 0 9) := by decide
theorem test_decode_jge : decode Opcodes.default 0b00110011000000000000000000001001 = .instr (.jge 0 9) := by decide
theorem test_decode_jg : decode Opcodes.default 0b00110100011100000000000000001001 = .instr (.jg 7 9) := by decide
theorem test_decode_ret : decode Opcodes.default 0b00101010000000000000000000000011 = .instr (.ret 0 3) := by decide
theorem test_decode_mov : decode Opcodes.default 0b00011000000100101111111111111111 = .instr (.mov 1 2 (-1)) := by decide
theorem test_decode_mul : decode Opcodes.default 0b00000110001000111000000000000000 = .instr (.mul 2 3 (-32768)) := by
  decide
theorem test_decode_loadr : decode Opcodes.default 0b01000100001011100000000000000001 = .instr (.loadr 2 14 1) := by
  decide

/-- V-dec-7, V-dec-8: zeroed memory and the neighbours of assigned opcodes. -/
theorem test_decode_illegal :
    decode Opcodes.default 0 = .illegal 0 ∧ decode Opcodes.default 0x02000000 = .illegal 2 ∧
    decode Opcodes.default 0x29FFFFFF = .illegal 41 ∧ decode Opcodes.default 0x45000000 = .illegal 69 ∧
    decode Opcodes.default 0xFF123456 = .illegal 255 := by decide

/-- X5: any word round-trips, here one whose opcode is not assigned. -/
theorem test_roundtrip_any_word :
    decodeRI 0xDEADBEEF = ⟨0xDE, 0xA, 0xFFFDBEEF⟩ ∧ decodeRM 0xDEADBEEF = ⟨0xDE, 0xA, 0x000DBEEF⟩ ∧
    decodeRR 0xDEADBEEF = ⟨0xDE, 0xA, 0xD, 0xFFFFBEEF⟩ ∧ encodeRR (decodeRR 0xDEADBEEF) = 0xDEADBEEF := by decide

/-- R8, R84: `OPC` is a parameter; under another binding the same word is another instruction. -/
theorem test_decode_follows_configuration :
    decode { Opcodes.default with lc := 5, addi := 12 } 0x0C000005 = .instr (.addi 0 5) := by decide

/-! ### Fetch -/

/-- V-fetch-1: the entry point at MEM_SIZE. -/
theorem test_fetch_out_of_bounds :
    faultOf (step (State.reset.loaded 0x100000 [])) = some (.boundsMem 0x100000 0x100000) := by decide

/-- V-fetch-2: the last word of memory executes and `pc` becomes MEM_SIZE, without a wrap. -/
theorem test_fetch_last_word :
    after (fun t => (t.reg 1, t.pc)) (step (small 15 (List.replicate 15 0 ++ [0x0C100001]))) = some (1, 16) := by decide

/-- V-fetch-2, second step. -/
theorem test_fetch_past_last_word :
    faultOf (step { small 15 [] with pc := 16 }) = some (.boundsMem 16 16) := by decide

/-- X4, V-fetch-3: an unassigned opcode, and empty memory. -/
theorem test_dispatch_fault :
    faultOf (step (start 0xFF000000 [] [])) = some (.dispatch 255 0) ∧
    faultOf (step (State.reset.loaded 3 [])) = some (.dispatch 0 3) := by decide

/-! ### One step of each instruction -/

/-- V-addi-2, V-addi-5. -/
theorem test_addi_wraps :
    after (fun t => (t.reg 0, t.pc)) (step (start 0x03000001 [(0, 0xFFFFFFFF)] [])) = some (0, 1) ∧
    after (fun t => t.reg 5) (step (start 0x03580000 [(5, 0x00080000)] [])) = some 0 := by decide
/-- V-addi-6: a released slot is not cleared. -/
theorem test_addi_on_stack_pointer :
    after (fun t => (t.reg 14, t.mem.read 0xFFFFE)) (step (start 0x03E00001 [(14, 0xFFFFE)] [(0xFFFFE, 9)])) =
      some (0xFFFFF, 9) := by decide

/-- V-lc-1, V-lc-2. -/
theorem test_lc_replaces_and_extends :
    after (fun t => t.reg 0) (step (start 0x0C000005 [(0, 0xDEADBEEF)] [])) = some 5 ∧
    after (fun t => t.reg 7) (step (start 0x0C780000 [] [])) = some 0xFFF80000 := by decide

/-- V-push-2, V-push-3. -/
theorem test_push_stores_sum :
    after (fun t => (t.reg 0, t.reg 14, t.mem.read 0xFFFFE)) (step (start 0x26000004 [(0, 10)] [])) =
      some (10, 0xFFFFE, 14) ∧
    faultOf (step (start 0x26000000 [(14, 0)] [])) = some (.boundsMem 0xFFFFFFFF 0) := by decide
/-- V-push-6, V-push-5. -/
theorem test_push_of_stack_pointer :
    after (fun t => (t.reg 14, t.mem.read 0xFFFFE)) (step (start 0x26E00000 [] [])) = some (0xFFFFE, 0xFFFFE) ∧
    faultOf (step (start 0x26000000 [(14, 0x100001)] [])) = some (.boundsMem 0x100000 0) := by decide

/-- V-pop-2, V-pop-3. -/
theorem test_pop_clears_slot :
    after (fun t => (t.reg 1, t.reg 14, t.mem.read 0xFFFFE)) (step (start 0x271FFFFF [(14, 0xFFFFE)] [(0xFFFFE, 7)])) =
      some (6, 0xFFFFF, 0) ∧
    after (fun t => (t.reg 1, t.reg 14)) (step (start 0x27100000 [] [])) = some (0, 0x100000) := by decide
/-- V-pop-4: the clearing write goes through the new stack pointer. -/
theorem test_pop_into_stack_pointer :
    after (fun t => (t.reg 14, t.mem.read 0x100, t.mem.read 0xFFFFE))
      (step (start 0x27E00000 [(14, 0xFFFFE)] [(0xFFFFE, 0x100), (0x100, 5)])) = some (0x101, 0, 0x100) := by decide

/-- V-sys-1, V-sys-3, V-sys-7. -/
theorem test_syscall_exit_and_read :
    after (fun t => (t.runState, t.pc)) (step (start 0x01000000 [] [])) = some (.halted .exit, 1) ∧
    after (fun t => (t.reg 3, t.console.answers)) (step { start 0x01300064 [] [] with console := ⟨[42, 9], 0, []⟩ }) =
      some (42, [9]) ∧
    after (fun t => t.reg 2) (step { start 0x01200068 [] [] with console := ⟨[65], 0, []⟩ }) = some 65 := by decide
/-- V-sys-6, V-sys-8, V-sys-11. -/
theorem test_syscall_write_and_unknown :
    after (fun t => t.console.events) (step (start 0x01000066 [(0, 0xFFFFFFFF)] [])) = some [.outInt 0xFFFFFFFF] ∧
    after (fun t => t.console.events) (step (start 0x01200069 [(2, 65)] [])) = some [.outChar 65] ∧
    after (fun t => (t.runState, t.console.events)) (step (start 0x010FFFFF [] [])) =
      some (.halted (.unknownSyscall (-1)), [.diag 0xFFFFFFFF]) := by decide

/-- V-jmp-1, V-jmp-3. -/
theorem test_jmp_pushes_return_address :
    after (fun t => (t.reg 14, t.mem.read 0xFFFFE, t.pc)) (step (start 0x2E000005 [] [])) = some (0xFFFFE, 1, 5) ∧
    after (fun t => (t.reg 14, t.mem.read 14, t.pc)) (step (small 0 [0x2E000014])) = some (14, 1, 20) := by decide
/-- V-jmp-2. -/
theorem test_jmp_without_room :
    faultOf (step (start 0x2E000005 [(14, 0)] [])) = some (.boundsMem 0xFFFFFFFF 0) := by decide

/-- Where a conditional jump to 9 goes for the `flags` 0, 1, -1, the most negative and the most positive. -/
def targets (w : Word) : List (Option Word) :=
  [0, 1, 0xFFFFFFFF, 0x80000000, 0x7FFFFFFF].map fun f => after State.pc (step { start w [] [] with flags := f })

/-- V-jcc-1 to V-jcc-5. -/
theorem test_jne_taken : targets 0x2F000009 = [some 1, some 9, some 9, some 9, some 9] := by decide
/-- V-jcc-1 to V-jcc-5. -/
theorem test_jeq_taken : targets 0x30000009 = [some 9, some 1, some 1, some 1, some 1] := by decide
/-- V-jcc-1 to V-jcc-5. -/
theorem test_jle_taken : targets 0x31000009 = [some 9, some 1, some 9, some 9, some 1] := by decide
/-- V-jcc-1 to V-jcc-5. -/
theorem test_jl_taken : targets 0x32000009 = [some 1, some 1, some 9, some 9, some 1] := by decide
/-- V-jcc-1 to V-jcc-5. -/
theorem test_jge_taken : targets 0x33000009 = [some 9, some 9, some 1, some 1, some 9] := by decide
/-- V-jcc-1 to V-jcc-5. -/
theorem test_jg_taken : targets 0x34000009 = [some 1, some 9, some 1, some 1, some 9] := by decide
/-- V-jcc-6: a jump not taken accesses no stack. -/
theorem test_jl_not_taken_without_stack :
    after (fun t => (t.pc, t.reg 14)) (step (start 0x32000009 [(14, 0)] [])) = some (1, 0) := by decide
/-- V-jcc-7: the `reg` field is ignored; the taken jump pushes. -/
theorem test_jg_ignores_reg :
    after (fun t => (t.pc, t.reg 14, t.mem.read 0xFFFFE)) (step { start 0x34700009 [] [] with flags := 1 }) =
      some (9, 0xFFFFE, 1) := by decide

/-- V-ret-1, V-ret-2. -/
theorem test_ret_releases :
    after (fun t => (t.pc, t.reg 14, t.mem.read 0xFFFFE)) (step (start 0x2A000000 [(14, 0xFFFFE)] [(0xFFFFE, 3)])) =
      some (3, 0xFFFFF, 3) ∧
    after (fun t => (t.pc, t.reg 14)) (step (start 0x2A000003 [(14, 0xFFFF0)] [(0xFFFF0, 2)])) =
      some (2, 0xFFFF4) := by decide
/-- V-ret-3, V-ret-4. -/
theorem test_ret_bounds :
    faultOf (step (start 0x2A000000 [(14, 0x100000)] [])) = some (.boundsMem 0x100000 0) ∧
    after (fun t => t.pc) (step (start 0x2A000000 [(14, 0xFFFFE)] [(0xFFFFE, 0xABCDEF01)])) = some 0xABCDEF01 := by
  decide

/-- V-mov-2, V-mov-5. -/
theorem test_mov_offsets :
    after (fun t => (t.reg 1, t.reg 2)) (step (start 0x1812FFFF [(2, 7)] [])) = some (6, 7) ∧
    after (fun t => t.reg 5) (step (start 0x185E0000 [] [])) = some 0xFFFFF := by decide
/-- V-mov-4. -/
theorem test_mov_same_register :
    after (fun t => t.reg 4) (step (start 0x18447FFF [(4, 0xFFFFFFFF)] [])) = some 0x00007FFE := by decide

/-- V-mul-3 and V-mul-5, each under both readings. -/
theorem test_mul_signedness :
    after (fun t => (t.reg 2, t.reg 3)) (step (start 0x06230000 [(2, 0x80000000), (3, 2)] [])) = some (0, 1) ∧
    after (fun t => (t.reg 2, t.reg 3)) (step (signedMul (start 0x06230000 [(2, 0x80000000), (3, 2)] []))) =
      some (0, 0xFFFFFFFF) ∧
    after (fun t => (t.reg 2, t.reg 3)) (step (start 0x0623FFFF [(2, 3)] [])) = some (0xFFFFFFFD, 2) := by decide
/-- V-mul-6, V-mul-8, V-mul-7: the successor register, register 14 as successor, no successor. -/
theorem test_mul_successor :
    after (fun t => (t.reg 4, t.reg 5, t.reg 6)) (step (start 0x06460003 [(4, 6), (5, 99), (6, 4)] [])) =
      some (42, 0, 4) ∧
    after (fun t => (t.reg 13, t.reg 14)) (step (start 0x06D00000 [(13, 0x10000), (0, 0x10000)] [])) = some (0, 1) ∧
    faultOf (step (start 0x06F00000 [(15, 3), (0, 4)] [])) = some (.boundsReg 16 0) := by decide

/-- V-loadr-1, V-loadr-4: above the stack pointer, and an address that wraps to the instruction itself. -/
theorem test_loadr_loads :
    after (fun t => (t.reg 2, t.reg 14, t.mem.read 0xFFFFE)) (step (start 0x442E0001 [(14, 0xFFFFD)] [(0xFFFFE, 7)])) =
      some (7, 0xFFFFD, 7) ∧
    after (fun t => t.reg 2) (step (start 0x44220001 [(2, 0xFFFFFFFF)] [])) = some 0x44220001 := by decide
/-- V-loadr-2, V-loadr-6. -/
theorem test_loadr_bounds :
    faultOf (step (start 0x4423FFFF [] [])) = some (.boundsMem 0xFFFFFFFF 0) ∧
    faultOf (step (start 0x44230000 [(3, 0x100000)] [])) = some (.boundsMem 0x100000 0) := by decide

/-! ### Reset, loading and the host's transactions -/

/-- R38: after construction nothing is loaded. -/
theorem test_reset_refuses_exec : step State.reset = .refused .notLoaded := rfl

/-- V-rst-1. -/
theorem test_load_program :
    (State.reset.loadProgram [2, 0x11, 0x22, 0x33]).toOption.map
      (fun t => (t.pc, t.mem, t.reg 14, t.runState)) =
      some (2, [(0, 0x11), (1, 0x22), (2, 0x33)], 0xFFFFF, .ready) := by decide

/-- V-rst-2, V-rst-3: refused images, at the boundary of sixteen words. -/
theorem test_load_program_refusals :
    (State.reset.loadProgram []).isOk = false ∧ ((small 0 []).loadProgram (List.replicate 18 0)).isOk = false ∧
    ((small 0 []).loadProgram (List.replicate 17 0)).isOk = true := by decide

/-- R29, V-rst-4: `set_flags` writes `flags`; the next load clears it. -/
theorem test_set_flags :
    ((small 0 []).setFlags 5).toOption.map (fun t => (t.flags, (t.loaded 0 []).flags)) = some (5, 0) ∧
    (State.reset.setFlags 5).isOk = false := by decide

/-- R114, R208: the reports of `exec` and their numbers. -/
theorem test_exec_reports :
    (start 0x0C000005 [] []).execTransaction.2.number = some 0 ∧
    (start 0x01000000 [] []).execTransaction.2.number = some 1 ∧
    (start 0 [] []).execTransaction.2.number = some 2 ∧
    (start 0x2A000000 [(14, 0x100000)] []).execTransaction.2.number = some 3 ∧
    (start 0x06F00000 [] []).execTransaction.2.number = some 4 ∧
    State.reset.execTransaction.2.number = none := by decide

/-- R230, U12: construction with an admitted and with an ill-formed configuration. -/
theorem test_construction :
    (construct? Config.default).isSome = true ∧
    (construct? { Config.default with stackTop := 7 }).isSome = false := by decide

/-- The host's two questions, on one word. -/
theorem test_table_word :
    decodeTableWord 32 0x06238000 = some (.mul 2 3 (-32768)) ∧ decodeTableWord 8 0xFFFF = none ∧
    after (fun t => (t.reg 0, t.pc)) (step (State.reset.withFetchWord 32 0x0C000005)) = some (5, 1) := by decide

/-! ### Witnesses: the hypotheses of the statements, met together

They stand at the boundaries of the ranges a statement distinguishes: addresses 0xFFFFF and 0x100000 on the default machine,
stack pointers 0, 1, 0x100000 and 0x100001, registers 14 and 15. -/

theorem witness_StepRunsDecodedInstruction :
    let s := { start 0 [] [(0xFFFFF, 0x0C000005)] with pc := 0xFFFFF }
    s.Startable ∧ s.cfg.memSize ≤ 2 ^ 32 - 1 ∧ s.pc.toNat < s.cfg.memSize ∧
      decode s.cfg.opc (s.mem.read s.pc.toNat) = .instr (.lc 0 5) := by decide

theorem witness_FetchIsBoundsChecked :
    let s := start 0 [] []
    ({ s with pc := 0xFFFFF } : State).pc.toNat < s.cfg.memSize ∧
      s.cfg.memSize ≤ ({ s with pc := 0x100000 } : State).pc.toNat ∧ s.Startable := by decide

theorem witness_DispatchSelectsByOpcodeAlone :
    Opcodes.default.Injective ∧ Opcodes.default.code .jg = (0x34700009 : Word).extractLsb' 24 8 ∧
    (∀ m ∈ Mnemonic.all, Opcodes.default.code m ≠ (0x35000000 : Word).extractLsb' 24 8) ∧
    (start 0x35000000 [] []).Startable ∧ (start 0x35000000 [] []).pc.toNat < 0x100000 ∧
    (start 0x35000000 [] []).cfg.opc = Opcodes.default ∧ (start 0x35000000 [] []).mem.read 0 = 0x35000000 := by decide

theorem witness_DispatchFaultRaisedExactlyByDispatch :
    step (start 0x35000000 [] []) = .fault (.dispatch 0x35 0) ∧ (start 0x35000000 [] []).Startable :=
  ⟨eq_fault (by decide), by decide⟩

theorem witness_UnassignedOpcodesAreIllegal :
    let s := start 0x45FFFFFF [] []
    s.Startable ∧ s.pc.toNat < s.cfg.memSize ∧ (69 : BitVec 8) = (s.mem.read s.pc.toNat).extractLsb' 24 8 ∧
    (∀ m ∈ Mnemonic.all, s.cfg.opc.code m ≠ 69) ∧ s.cfg.opc = Opcodes.default ∧
    (start 0 [] []).mem.read (start 0 [] []).pc.toNat = 0 := by decide

theorem witness_ExecRefusedExactlyOutsideReadyAndRunning :
    State.reset.runState = .unloaded ∧ ¬ State.reset.Startable ∧
    (State.reset.halt .exit).runState = .halted .exit ∧
    ({ State.reset with runState := .faulted (.dispatch 0 0) } : State).runState = .faulted (.dispatch 0 0) := by decide

/-- One start for each way an `exec` can end, and for each way `set_flags` can answer. -/
theorem witness_RunStateTransitionsAreComplete :
    State.reset.loadProgram [0, 0x01000000] = .ok (start 0x01000000 [] []) ∧ (start 0x01000000 [] []).Startable ∧
    (start 0x0C000005 [] []).execTransaction.2 = .continues ∧
    (start 0x01000000 [] []).execTransaction.2 = .halted .exit ∧
    (start 0x01000007 [] []).execTransaction.2 = .halted (.unknownSyscall 7) ∧
    (start 0 [] []).execTransaction.2 = .faulted (.dispatch 0 0) ∧
    ((start 0 [] []).setFlags 1).isOk = true ∧ ¬ State.reset.Startable := by decide

theorem witness_FaultIsTerminal :
    step (start 0 [] []) = .fault (.dispatch 0 0) ∧ ([0x01000000] : List Word).length ≤ (start 0 [] []).cfg.memSize :=
  ⟨eq_fault (by decide), by decide⟩

theorem witness_FormatsRoundTrip_and_EncoderIsTheShiftedSum :
    inRangeRI (-524288) ∧ inRangeRI 524287 ∧ inRangeRM 0 ∧ inRangeRM 1048575 ∧ inRangeRR (-32768) ∧
    inRangeRR 32767 := by decide

theorem witness_DecodeOfEncode :
    Opcodes.default.Injective ∧ Instr.wf (.lc 15 (-524288)) ∧ Instr.wf (.push 0 524287) ∧ Instr.wf (.jmp 15 1048575) ∧
    Instr.wf (.mov 0 15 (-32768)) ∧ Instr.wf (.loadr 15 0 32767) := by decide

theorem witness_EncodeOfDecode :
    decode Opcodes.default 0x2F0A0004 = .instr (.jne 0 0xA0004) ∧
    decode Opcodes.default 0x06238000 = .instr (.mul 2 3 (-32768)) := by decide

theorem witness_IgnoredFieldsHaveNoEffect :
    (0 : Word).toInt = State.reset.cfg.sys.exit ∧ (0xFFFFFFFF : Word).toInt ∉ State.reset.cfg.sys.toList := by decide

theorem witness_MemoryAccessIsBoundsChecked :
    let s := start 0x0C000005 [] []
    (0xFFFFF : Word).toNat < s.cfg.memSize ∧ s.cfg.memSize ≤ (0x100000 : Word).toNat ∧ s.mem.wf ∧
      ∀ c ∈ s.mem, c.1 < s.cfg.memSize := by decide

theorem witness_RegisterWriteIsChecked : (15 < 16) ∧ (16 ≤ 16) := by decide

/-- Of the decoding half of every instruction's statement: an injective `OPC`, and a word with each opcode byte. -/
theorem witness_Decodes :
    Opcodes.default.Injective ∧
    ∀ m ∈ Mnemonic.all, (Opcodes.default.code m ++ (0xABCDE : BitVec 24) : Word).extractLsb' 24 8 =
      Opcodes.default.code m := by decide

/-- `push` and the jumps, `jmp` among them: the highest stack pointer that still pushes, the lowest, and one beyond
each. -/
theorem witness_PushStoresBelowStackPointer_and_JmpPushesReturnAddress :
    let sp := fun v => ((start 0 [(14, v)] []).reg spReg - 1).toNat
    sp 0x100000 < 0x100000 ∧ sp 1 < 0x100000 ∧ 0x100000 ≤ sp 0 ∧ 0x100000 ≤ sp 0x100001 ∧
    (start 0 [] []).cfg.memSize = 0x100000 ∧ (start 0 [] []).cfg.memSize ≤ (0x100000 : Word).toNat ∧
    (14 : RegIdx) = spReg ∧ (15 : RegIdx) ≠ spReg := by decide

/-- The four cases of `pop`: another register, register 14 with its new value just inside and just outside memory, and
the stack pointer at the end of memory. -/
theorem witness_PopLoadsAndClearsSlot :
    let s := start 0 [(14, 0xFFFFF)] [(0xFFFFF, 0xFFFFE)]
    (s.reg spReg).toNat < s.cfg.memSize ∧ (15 : RegIdx) ≠ spReg ∧
    (s.mem.read (s.reg spReg).toNat + 1).toNat < s.cfg.memSize ∧
    s.cfg.memSize ≤ (s.mem.read (s.reg spReg).toNat + 2).toNat ∧
    s.cfg.memSize ≤ ((start 0 [(14, 0x100000)] []).reg spReg).toNat := by decide

/-- One push and one pop, with the stack pointer at both ends of the room. -/
theorem witness_StackDiscipline_one :
    let s := start 0 [(14, 1)] []
    let s' := start 0 [(14, 0x100000)] []
    (0 : RegIdx) ≠ spReg ∧ (15 : RegIdx) ≠ spReg ∧ s.cfg.memSize ≤ 2 ^ 32 - 1 ∧ 1 ≤ (s.reg spReg).toNat ∧
    (s.reg spReg).toNat ≤ s.cfg.memSize ∧ 1 ≤ (s'.reg spReg).toNat ∧ (s'.reg spReg).toNat ≤ s'.cfg.memSize := by decide

/-- X6: two pushes and two pops, with room for exactly two. -/
theorem witness_StackDiscipline_sequence :
    let s := start 0 [(14, 2), (0, 0x11), (1, 0x22)] []
    let ps : List (RegIdx × Word) := [(0, 0), (1, 0)]
    let qs : List (RegIdx × Word) := [(2, 0), (3, 0)]
    ps.length = qs.length ∧ (∀ p ∈ ps, p.1 ≠ spReg) ∧ (∀ q ∈ qs, q.1 ≠ spReg) ∧ (qs.map Prod.fst).Nodup ∧
    s.cfg.memSize ≤ 2 ^ 32 - 1 ∧ ps.length ≤ (s.reg spReg).toNat ∧ (s.reg spReg).toNat ≤ s.cfg.memSize := by
  refine ⟨by decide, by simp; decide, by simp; decide, by decide, by decide, by decide, by decide⟩

/-- A later state as the first half of StackDiscipline asks for: the one the push itself left. -/
theorem witness_StackDiscipline_later_state :
    let s := start 0 [(0, 7)] []
    after (fun t => decide (t.cfg = s.cfg ∧ t.reg spReg = s.reg spReg - 1)) (exec (.push 0 0) s) = some true := by decide

/-- For SyscallAlwaysCompletes, ExitServiceHalts, WriteServicesEmitOneEvent and UnknownServiceHaltsWithDiagnostic: every
service code, and two that are none of the five. -/
theorem witness_syscall_services :
    let c := (start 0 [] []).cfg.sys
    c.Wf ∧ (0 : Word).toInt = c.exit ∧ (100 : Word).toInt = c.readInt ∧ (102 : Word).toInt = c.printInt ∧
    (104 : Word).toInt = c.readChar ∧ (105 : Word).toInt = c.writeChar ∧ (101 : Word).toInt ∉ c.toList ∧
    (0xFFFFFFFF : Word).toInt ∉ c.toList := by decide

theorem witness_ReadServicesTakeOneAnswer :
    (⟨[42], 0, []⟩ : Console).answers = 42 :: [] ∧ (start 0 [] []).console.answers = [] := by decide

theorem witness_HaltOnlyBySyscall :
    after (fun t => t.runState) (step (start 0x01000000 [] [])) = some (.halted .exit) ∧
    after (fun t => t.runState) (exec (.syscall 0 0) (start 0 [] [])) = some (.halted .exit) ∧
    after (fun t => decide (([] : List Word).length ≤ t.cfg.memSize)) (exec (.syscall 0 0) (start 0 [] [])) =
      some true := by decide

/-- A next state of a plain instruction and of each kind of console use. -/
theorem witness_ConsoleTouchedOnlyBySyscall :
    (after (fun t => t.console) (exec (.lc 0 5) (start 0 [] [])) = some ⟨[], 0, []⟩) ∧
    (after (fun t => t.console) (exec (.syscall 0 102) (start 0 [] [])) = some ⟨[], 0, [.outInt 0]⟩) ∧
    (after (fun t => t.console) (exec (.syscall 0 100) { start 0 [] [] with console := ⟨[42], 0, []⟩ }) =
      some ⟨[], 0, []⟩) ∧
    (after (fun t => t.console) (exec (.syscall 0 100) (start 0 [] [])) = some ⟨[], 1, []⟩) := by decide

/-- A state with the given `flags` and stack pointer. -/
def flagged (f sp : Word) : State := { start 0 [(14, sp)] [] with flags := f }

/-- Each of the six relations at a `flags` that meets it, with the least room for the push. -/
theorem witness_ConditionalJumpsFollowFlags_taken :
    (flagged 1 1).flags.toInt ≠ 0 ∧ (flagged 0 1).flags.toInt = 0 ∧ (flagged 0 1).flags.toInt ≤ 0 ∧
    (flagged (-1) 1).flags.toInt < 0 ∧ (flagged 0 1).flags.toInt ≥ 0 ∧ (flagged 1 1).flags.toInt > 0 ∧
    ((flagged 0 1).reg spReg - 1).toNat < (flagged 0 1).cfg.memSize ∧
    ((flagged 1 1).reg spReg - 1).toNat < (flagged 1 1).cfg.memSize ∧
    ((flagged (-1) 1).reg spReg - 1).toNat < (flagged (-1) 1).cfg.memSize := by decide

/-- The same `flags` without room. -/
theorem witness_ConditionalJumpsFollowFlags_fault :
    (flagged 1 0).flags.toInt ≠ 0 ∧ (flagged 0 0).flags.toInt = 0 ∧ (flagged 0 0).flags.toInt ≤ 0 ∧
    (flagged (-1) 0).flags.toInt < 0 ∧ (flagged 0 0).flags.toInt ≥ 0 ∧ (flagged 1 0).flags.toInt > 0 ∧
    (flagged 0 0).cfg.memSize ≤ ((flagged 0 0).reg spReg - 1).toNat ∧
    (flagged 1 0).cfg.memSize ≤ ((flagged 1 0).reg spReg - 1).toNat ∧
    (flagged (-1) 0).cfg.memSize ≤ ((flagged (-1) 0).reg spReg - 1).toNat := by decide

/-- Each of the six relations at a `flags` that does not meet it. -/
theorem witness_ConditionalJumpsFollowFlags_not_taken :
    (¬ (flagged 0 1).flags.toInt ≠ 0) ∧ (¬ (flagged 0x80000000 1).flags.toInt = 0) ∧
    (¬ (flagged 1 1).flags.toInt ≤ 0) ∧ (¬ (flagged 0 1).flags.toInt < 0) ∧
    (¬ (flagged (-1) 1).flags.toInt ≥ 0) ∧ (¬ (flagged 0 1).flags.toInt > 0) := by decide

theorem witness_RetReturnsAndReleases :
    ((start 0 [(14, 0xFFFFF)] []).reg spReg).toNat < (start 0 [] []).cfg.memSize ∧
    (start 0 [] []).cfg.memSize ≤ ((start 0 [(14, 0x100000)] []).reg spReg).toNat := by decide

/-- Every kind of taken jump with the least room for its push. -/
theorem witness_RetUndoesJump :
    JumpTaken (.jmp 0 9) (flagged 0 1).flags ∧ JumpTaken (.jne 0 9) (flagged 1 1).flags ∧
    JumpTaken (.jeq 0 9) (flagged 0 1).flags ∧ JumpTaken (.jle 0 9) (flagged 0 1).flags ∧
    JumpTaken (.jl 0 9) (flagged (-1) 1).flags ∧ JumpTaken (.jge 0 9) (flagged 0 1).flags ∧
    JumpTaken (.jg 0 9) (flagged 1 1).flags ∧
    ((flagged 0 1).reg spReg - 1).toNat < (flagged 0 1).cfg.memSize ∧
    ((flagged 1 1).reg spReg - 1).toNat < (flagged 1 1).cfg.memSize ∧
    ((flagged (-1) 1).reg spReg - 1).toNat < (flagged (-1) 1).cfg.memSize := by
  unfold JumpTaken
  decide

/-- The later state RetUndoesJump asks for: the one the jump itself left. -/
theorem witness_RetUndoesJump_later_state :
    after (fun t => decide (t.cfg = (start 0 [] []).cfg ∧ t.reg spReg = 0 ∧ t.mem.read 0 = (start 0 [] []).pc))
      (exec (.jg 0 9) (flagged 1 1)) = some true := by decide

theorem witness_MulSplitsProduct :
    (14 : RegIdx).val + 1 < 16 ∧ (start 0 [] []).cfg.mulSigned = false ∧
    (signedMul (start 0 [] [])).cfg.mulSigned = true := by decide

theorem witness_LoadrLoadsFromRegisterAddress :
    let s := start 0 [(3, 0xFFFFF)] []
    (s.reg 3 + 0).toNat < s.cfg.memSize ∧ s.cfg.memSize ≤ (s.reg 3 + 1).toNat := by decide

/-- A next state of an instruction that stores, with the address, and of one that does not. -/
theorem witness_MemoryWrittenOnlyThroughStackPointer :
    (after (fun t => t.mem) (exec (.push 0 7) (start 0 [] [])) = some [(0xFFFFE, 7)]) ∧
    storedAt (.push 0 7) (start 0 [] []) = some 0xFFFFE ∧
    (after (fun t => t.mem) (exec (.jeq 0 9) (start 0 [] [])) = some []) ∧
    storedAt (.jeq 0 9) (start 0 [] []) = some 0xFFFFE ∧ storedAt (.jne 0 9) (start 0 [] []) = none := by decide

/-- As in program P4: the pushed word is `syscall r0 0`. -/
theorem witness_PushedWordIsFetched :
    let s := { start 0 [(14, 6), (4, 0x01000000)] [] with pc := 5 }
    (4 : RegIdx) ≠ spReg ∧ (s.reg spReg - 1).toNat < s.cfg.memSize ∧ s.pc = s.reg spReg - 1 ∧
    decode s.cfg.opc (s.reg 4 + 0) = .instr (.syscall 0 0) := by decide

/-- Each kind of store, the state it leaves fetching at the stored address: `push` of register 14 and of another, both
cases of `pop`, a jump to the word it pushes, and one whose stored word is a legal instruction. -/
def storing : List (Instr × State × Nat × Word) :=
  [(.push 14 1, { start 0 [(14, 6)] [] with pc := 5 }, 5, 6),
   (.push 4 0, { start 0 [(14, 6), (4, 0x01000000)] [] with pc := 5 }, 5, 0x01000000),
   (.pop 1 0, { start 0 [(14, 5)] [(5, 0x01000000)] with pc := 5 }, 5, 0),
   (.pop 14 0, { start 0 [(14, 7)] [(7, 5)] with pc := 5 }, 5, 0),
   (.jmp 0 5, { start 0 [(14, 6)] [] with pc := 0x01000000 }, 5, 0x01000000),
   (.jge 0 0xFFFFF, { start 0 [(14, 0x100000)] [] with pc := 3 }, 0xFFFFF, 3)]

theorem witness_StoredWordIsFetched :
    storing.map (fun c => after (fun t => decide (t.cfg = c.2.1.cfg ∧ t.Startable ∧ t.pc.toNat = c.2.2.1))
      (exec c.1 c.2.1)) = List.replicate 6 (some true) ∧
    storing.map (fun c => (storedAt c.1 c.2.1, storedWord c.1 c.2.1)) =
      storing.map (fun c => (some c.2.2.1, some c.2.2.2)) := by decide

theorem witness_StoredWordIsFetched_decoding :
    decode Opcodes.default 0x01000000 = .instr (.syscall 0 0) ∧ decode Opcodes.default 0 = .illegal 0 := by decide

theorem witness_FlagsReadOnlyByConditionalJumps :
    .jne ∈ conditionalJumps ∧ .jg ∈ conditionalJumps ∧ Instr.mnemonic (.jmp 0 5) ∉ conditionalJumps ∧
    Instr.mnemonic (.syscall 0 0) ∉ conditionalJumps ∧
    (after (fun t => t.flags) (exec (.jne 0 5) { start 0 [] [] with flags := 3 }) = some 3) := by decide

theorem witness_FrameNeverReadOrWritten :
    (State.reset.loadProgram [0, 0x0C000005] = .ok (start 0x0C000005 [] [])) ∧
    (after (fun t => t.frame) (step (start 0x0C000005 [] [])) = some 0xFFFFF) := by decide

/-- A fault at each site, `pop`'s clearing write and a fetch among them. -/
theorem witness_MemoryFaultSitesAreTheListedOnes :
    exec (.push 0 0) (start 0 [(14, 0)] []) = .fault (.boundsMem 0xFFFFFFFF 0xFFFFFFFF) ∧
    exec (.pop 14 1) (start 0 [] [(0xFFFFF, 0xFFFFF)]) = .fault (.boundsMem 0x100000 0xFFFFFFFF) ∧
    exec (.jge 0 9) (start 0 [(14, 0)] []) = .fault (.boundsMem 0xFFFFFFFF 0xFFFFFFFF) ∧
    exec (.loadr 2 3 (-1)) (start 0 [] []) = .fault (.boundsMem 0xFFFFFFFF 0xFFFFFFFF) ∧
    (State.reset.loaded 0x100000 []).Startable ∧
    (State.reset.loaded 0x100000 []).cfg.memSize ≤ (State.reset.loaded 0x100000 []).pc.toNat :=
  ⟨eq_fault (by decide), eq_fault (by decide), eq_fault (by decide), eq_fault (by decide), by decide, by decide⟩

theorem witness_RegisterFaultOnlyByMul15 :
    exec (.mul 15 0 0) (start 0 [] []) = .fault (.boundsReg 16 0xFFFFFFFF) :=
  eq_fault (by decide)

theorem witness_ConstructionValues : Config.Wf Config.default := by decide

/-- Images at both ends of the accepted lengths, on the machine of sixteen words. -/
theorem witness_LoadProgramResetsEverything_and_ImageAcceptance :
    let s := small 0 []
    (List.replicate 16 (0 : Word)).length ≤ s.cfg.memSize ∧ ([] : List Word).length ≤ s.cfg.memSize ∧
    s.cfg.opc = Opcodes.default ∧ (15 : Word).toNat < s.cfg.memSize ∧ s.cfg.memSize ≤ (16 : Word).toNat := by decide

theorem witness_LoadForgetsThePast :
    let s := small 0 [1]
    let s' := { small 3 [2, 3] with flags := 9, runState := .halted .exit }
    s.cfg = s'.cfg ∧ s.console.answers = s'.console.answers ∧ s.console.draws = s'.console.draws ∧ s ≠ s' := by decide

theorem witness_SetFlagsWritesOnlyFlags : (start 0 [] []).Startable ∧ ¬ State.reset.Startable := by decide

theorem witness_LoadEstablishesInvariant_and_RunsWithoutSetFlags :
    State.reset.cfg.Wf ∧ State.reset.loadProgram [0, 0x0C000005] = .ok (start 0x0C000005 [] []) := by decide

theorem witness_StepKeepsInvariant :
    (start 0x26000004 [] []).Inv ∧ after State.pc (step (start 0x26000004 [] [])) = some 1 := by decide

theorem witness_StepKeepsInvariantWithFlagsZero :
    (start 0x26000004 [] []).flags = 0 ∧ (start 0x26000004 [] []).Inv ∧
    after State.pc (step (start 0x26000004 [] [])) = some 1 := by decide

/-- A run of one step, for the statement about runs. -/
theorem witness_RunsWithoutSetFlagsDecideEveryJump :
    ∃ u, RunsTo (start 0x0C000005 [] []) u ∧ u.reg 0 = 5 := by
  obtain ⟨u, h, h5⟩ := exists_next (f := fun t => t.reg 0) (o := step (start 0x0C000005 [] [])) (v := 5) (by decide)
  exact ⟨u, .after .here h, h5⟩

end Sys2Proof.Tests
end

section
/-! PROOFS (spec/00_scope.md). The invariant holds where a machine begins: after construction, hence after reset, and
after every accepted `load_program`. -/

namespace Sys2Proof

/-- The default configuration is one R8 admits. -/
theorem Config.wf_default : Config.default.Wf := by decide

end Sys2Proof

namespace Sys2Proof.Machine

/-- Construction (R38, R230) from an admitted configuration: memory is empty and `frame` is set to STACK_TOP. -/
theorem State.inv_construct {c : Config} (hc : c.Wf) : (State.construct c).Inv :=
  ⟨hc, Memory.wf_nil, List.forall_mem_nil _, rfl⟩

/-- The words of an image stand at addresses below its length. -/
theorem Memory.lt_length_of_mem_ofWords {ws : List Word} {c : WordCell} (h : c ∈ Memory.ofWords 0 ws) :
    c.1 < ws.length := by
  obtain ⟨-, hlt, -⟩ := Memory.mem_ofWords h
  omega

/-- Loading (R231): the image's length, checked against MEM_SIZE, is what keeps memory inside the address space. -/
theorem State.inv_loaded {s : State} (hc : s.cfg.Wf) (entry : Word) {ws : List Word}
    (hlen : ws.length ≤ s.cfg.memSize) : (s.loaded entry ws).Inv := by
  refine ⟨hc, Memory.wf_ofWords 0 ws, fun c hmem => ?_, State.loaded_frame s entry ws⟩
  calc c.1 < ws.length := Memory.lt_length_of_mem_ofWords hmem
    _ ≤ s.cfg.memSize := hlen

/-- Settles O49: reset is construction with the default configuration. -/
theorem resetMeetsInvariant : Obligations.ResetMeetsInvariant :=
  State.inv_construct Config.wf_default

/-- Settles O50: an accepted image is an entry point and words that fit in memory. -/
theorem loadEstablishesInvariant : Obligations.LoadEstablishesInvariant := by
  intro s t image hc hload
  obtain ⟨entry, ws, -, hlen, rfl⟩ := State.loadProgram_eq_ok hload
  exact State.inv_loaded hc entry hlen

end Sys2Proof.Machine
end

section
/-! PROOFS (spec/10_state.md R28, R30, R33, R34). What one handler can do to the state, once for all sixteen: `flags`,
`frame` and the configuration stay, and at most one word of memory, inside the address space, is stored. The invariant
of the machine follows. -/

namespace Sys2Proof.Machine

/-- What a handler or a step may do outside the registers, `pc`, `run_state` and the console: nothing, or one store
inside memory. -/
structure BoundedEffect (s t : State) : Prop where
  control : KeepsControl s t
  store : t.mem = s.mem ∨ ∃ a v, a < s.cfg.memSize ∧ t.mem = s.mem.write a v

theorem State.multiply_eq_ok {s t : State} {inReg outReg : RegIdx} {value : Word}
    (h : s.multiply inReg outReg value = .ok t) : ∃ q lo hi, t = (s.setReg inReg lo).setReg q hi := by
  by_cases hr : inReg.val + 1 < 16
  · rw [State.multiply_ok s inReg outReg value hr] at h
    exact ⟨_, _, _, (Except.ok.inj h).symm⟩
  · rw [State.multiply_error s inReg outReg value (Nat.not_lt.mp hr)] at h
    cases h

/-- A conditional jump whose relation fails has no effect at all (R150). -/
theorem exec_of_not_jumpTaken {i : Instr} {s : State} (hi : i.mnemonic ∈ conditionalJumps)
    (h : ¬ JumpTaken i s.flags) : exec i s = finish (.ok s) := by
  cases i
  case jne => rw [exec_jne, Bool.eq_false_iff.mpr (mt (condNe_iff _).mp h)]; rfl
  case jeq => rw [exec_jeq, Bool.eq_false_iff.mpr (mt (condEq_iff _).mp h)]; rfl
  case jle => rw [exec_jle, Bool.eq_false_iff.mpr (mt (condLe_iff _).mp h)]; rfl
  case jl => rw [exec_jl, Bool.eq_false_iff.mpr (mt (condLt_iff _).mp h)]; rfl
  case jge => rw [exec_jge, Bool.eq_false_iff.mpr (mt (condGe_iff _).mp h)]; rfl
  case jg => rw [exec_jg, Bool.eq_false_iff.mpr (mt (condGt_iff _).mp h)]; rfl
  all_goals simp [conditionalJumps, Instr.mnemonic] at hi

namespace BoundedEffect

theorem refl (s : State) : BoundedEffect s s := ⟨⟨rfl, rfl, rfl⟩, .inl rfl⟩

theorem of_setReg (s : State) (r : RegIdx) (v : Word) : BoundedEffect s (s.setReg r v) :=
  ⟨⟨rfl, rfl, rfl⟩, .inl rfl⟩

theorem of_pushWord {s t : State} {f : State → Word} (h : s.pushWord f = .ok t) : BoundedEffect s t := by
  obtain ⟨hb, rfl⟩ := State.pushWord_eq_ok h
  exact ⟨⟨rfl, rfl, rfl⟩, .inr ⟨_, _, hb, rfl⟩⟩

theorem of_popInto {s t : State} {reg : RegIdx} {value : Word} (h : s.popInto reg value = .ok t) :
    BoundedEffect s t := by
  obtain ⟨p, -, -, hb, rfl⟩ := State.popInto_eq_ok h
  exact ⟨⟨rfl, rfl, rfl⟩, .inr ⟨p.toNat, 0, hb, rfl⟩⟩

theorem of_jumpAndPush {s t : State} {value : Word} (h : s.jumpAndPush value = .ok t) : BoundedEffect s t := by
  obtain ⟨hb, rfl⟩ := State.jumpAndPush_eq_ok h
  exact ⟨⟨rfl, rfl, rfl⟩, .inr ⟨_, _, hb, rfl⟩⟩

theorem of_jumpIf {s t : State} {taken : Bool} {value : Word} (h : s.jumpIf taken value = .ok t) :
    BoundedEffect s t := by
  obtain ⟨-, rfl⟩ | ⟨-, hjump⟩ := State.jumpIf_eq_ok h
  · exact refl t
  · exact of_jumpAndPush hjump

theorem of_returnVia {s t : State} {value : Word} (h : s.returnVia value = .ok t) : BoundedEffect s t := by
  obtain ⟨-, rfl⟩ := State.returnVia_eq_ok h
  exact ⟨⟨rfl, rfl, rfl⟩, .inl rfl⟩

theorem of_multiply {s t : State} {inReg outReg : RegIdx} {value : Word} (h : s.multiply inReg outReg value = .ok t) :
    BoundedEffect s t := by
  obtain ⟨q, lo, hi, rfl⟩ := State.multiply_eq_ok h
  exact ⟨⟨rfl, rfl, rfl⟩, .inl rfl⟩

theorem of_loadInto {s t : State} {inReg outReg : RegIdx} {value : Word} (h : s.loadInto inReg outReg value = .ok t) :
    BoundedEffect s t := by
  obtain ⟨-, rfl⟩ := State.loadInto_eq_ok h
  exact of_setReg s _ _

/-- `syscall` stores nothing: each service writes a register, the console or `run_state`. -/
theorem of_execSyscall {s t : State} {r : RegIdx} {v : Word} (h : execSyscall r v s = .next t) : BoundedEffect s t := by
  obtain ⟨hcontrol, hmem⟩ : KeepsControl s t ∧ t.mem = s.mem := by
    rcases execSyscall_cases r v s with ⟨-, he⟩ | ⟨-, he⟩ | ⟨-, he⟩ | ⟨-, he⟩ | ⟨-, he⟩ <;>
      obtain rfl := Host.Outcome.next.inj (he.symm.trans h) <;> simp [KeepsControl]
  exact ⟨hcontrol, .inl hmem⟩

/-- The end of a handler (R105) writes `run_state` only. -/
theorem of_finish {s t : State} {r : Except Fault State} (hr : ∀ u, r = .ok u → BoundedEffect s u)
    (h : finish r = .next t) : BoundedEffect s t := by
  obtain ⟨u, hu, rfl⟩ := finish_eq_next_iff.mp h
  obtain ⟨hcontrol, hstore⟩ := hr u hu
  exact ⟨hcontrol, hstore⟩

theorem of_finish_setReg {s t : State} {r : RegIdx} {v : Word} (h : finish (.ok (s.setReg r v)) = .next t) :
    BoundedEffect s t :=
  of_finish (fun _ hu => Except.ok.inj hu ▸ of_setReg s r v) h

/-- Every handler. -/
theorem of_exec {i : Instr} {s t : State} (h : exec i s = .next t) : BoundedEffect s t := by
  cases i with
  | addi | lc | mov => exact of_finish_setReg h
  | push => exact of_finish (fun _ => of_pushWord) h
  | pop => exact of_finish (fun _ => of_popInto) h
  | syscall => exact of_execSyscall h
  | jmp => exact of_finish (fun _ => of_jumpAndPush) h
  | jne | jeq | jle | jl | jge | jg => exact of_finish (fun _ => of_jumpIf) h
  | ret => exact of_finish (fun _ => of_returnVia) h
  | mul => exact of_finish (fun _ => of_multiply) h
  | loadr => exact of_finish (fun _ => of_loadInto) h

/-- Every step: the fetch before the handler writes `pc` only (R102). -/
theorem of_step {s t : State} (h : step s = .next t) : BoundedEffect s t := by
  obtain ⟨-, -, i, -, hexec⟩ := step_eq_next h
  obtain ⟨hcontrol, hstore⟩ := of_exec hexec
  exact ⟨hcontrol, hstore⟩

/-- A store inside memory keeps the canonical form and the bounds of what memory lists; the rest of the invariant
speaks of the control registers. -/
theorem inv {s t : State} (h : BoundedEffect s t) (hs : s.Inv) : t.Inv := by
  obtain ⟨⟨-, hframe, hcfg⟩, hstore⟩ := h
  obtain ⟨hwf, hcanon, hbound, htop⟩ := hs
  unfold State.Inv
  rw [hcfg, hframe]
  obtain hmem | ⟨a, v, ha, hmem⟩ := hstore <;> rw [hmem]
  · exact ⟨hwf, hcanon, hbound, htop⟩
  · refine ⟨hwf, Memory.wf_write hcanon a v, fun c hc => ?_, htop⟩
    obtain rfl | hold := Memory.mem_write hc
    · exact ha
    · exact hbound c hold

end BoundedEffect

/-- Settles O51: a step stores at most one word, inside memory, and keeps the configuration and `frame`. -/
theorem stepKeepsInvariant : Obligations.StepKeepsInvariant :=
  fun _ _ hinv hstep => (BoundedEffect.of_step hstep).inv hinv

end Sys2Proof.Machine
end

section
/-! PROOFS (spec/10_state.md R28, R30). Who reads `flags` and `frame`: a handler run with other values of the two gives
the same outcome with those values carried along, except that the six conditional jumps read `flags`. -/

namespace Sys2Proof.Machine

/-- The machine with `flags` and `frame` put through `f` and `g`. With a constant function it is the machine with
another value in that register, and with `id` the register stays. -/
def State.mapControl (f g : Word → Word) (s : State) : State := { s with flags := f s.flags, frame := g s.frame }

/-! ### Each operation carries `flags` and `frame` along -/

section
variable (f g : Word → Word) (s : State)

@[simp] theorem State.mapControl_cfg : (s.mapControl f g).cfg = s.cfg := rfl
@[simp] theorem State.mapControl_sp : (s.mapControl f g).sp = s.sp := rfl
@[simp] theorem State.mapControl_memRead (a : Word) : (s.mapControl f g).memRead a = s.memRead a := rfl
@[simp] theorem State.mapControl_effectiveAddress (r : RegIdx) (v : Word) :
    (s.mapControl f g).effectiveAddress r v = s.effectiveAddress r v := rfl

theorem State.mapControl_setReg (r : RegIdx) (v : Word) :
    (s.mapControl f g).setReg r v = (s.setReg r v).mapControl f g := rfl

theorem State.mapControl_consoleIn :
    (s.mapControl f g).consoleIn = (s.consoleIn.1, s.consoleIn.2.mapControl f g) := by
  cases hans : s.console.answers with
  | nil => rw [s.consoleIn_of_no_answer hans, (s.mapControl f g).consoleIn_of_no_answer hans]; rfl
  | cons v rest => rw [s.consoleIn_of_answer v rest hans, (s.mapControl f g).consoleIn_of_answer v rest hans]; rfl

theorem State.mapControl_readConsoleInto (r : RegIdx) :
    (s.mapControl f g).readConsoleInto r = (s.readConsoleInto r).mapControl f g := by
  unfold State.readConsoleInto
  rw [State.mapControl_consoleIn, State.mapControl_setReg]

theorem State.mapControl_memWrite (a v : Word) :
    (s.mapControl f g).memWrite a v = (s.memWrite a v).map (State.mapControl f g) := by
  unfold State.memWrite
  rw [State.mapControl_cfg]
  split <;> rfl

theorem State.mapControl_writeRegAt (n : Nat) (v : Word) :
    (s.mapControl f g).writeRegAt n v = (s.writeRegAt n v).map (State.mapControl f g) := by
  unfold State.writeRegAt
  split <;> rfl

/-- The pushed word must be computed from neither of the two registers. -/
theorem State.mapControl_pushWord (w : State → Word) (hw : ∀ u : State, w (u.mapControl f g) = w u) :
    (s.mapControl f g).pushWord w = (s.pushWord w).map (State.mapControl f g) := by
  let s₁ := s.setSp (s.sp - 1)
  calc (s.mapControl f g).pushWord w
      = (s₁.mapControl f g).memWrite s₁.sp (w (s₁.mapControl f g)) := rfl
    _ = (s₁.memWrite s₁.sp (w s₁)).map (State.mapControl f g) := by rw [hw, State.mapControl_memWrite]

theorem State.mapControl_popInto (reg : RegIdx) (value : Word) :
    (s.mapControl f g).popInto reg value = (s.popInto reg value).map (State.mapControl f g) := by
  unfold State.popInto
  rw [State.mapControl_memRead, State.mapControl_sp]
  cases s.memRead s.sp with
  | error => rfl
  | ok t =>
    simp only [State.mapControl_setReg, State.mapControl_sp, State.mapControl_memWrite]
    cases (s.setReg reg (t + value)).memWrite (s.setReg reg (t + value)).sp 0 <;> rfl

theorem State.mapControl_jumpAndPush (value : Word) :
    (s.mapControl f g).jumpAndPush value = (s.jumpAndPush value).map (State.mapControl f g) := by
  unfold State.jumpAndPush
  rw [State.mapControl_pushWord f g s _ fun _ => rfl]
  cases s.pushWord (fun s₁ => s₁.pc) <;> rfl

theorem State.mapControl_returnVia (value : Word) :
    (s.mapControl f g).returnVia value = (s.returnVia value).map (State.mapControl f g) := by
  unfold State.returnVia
  rw [State.mapControl_memRead, State.mapControl_sp]
  cases s.memRead s.sp <;> rfl

theorem State.mapControl_multiply (inReg outReg : RegIdx) (value : Word) :
    (s.mapControl f g).multiply inReg outReg value = (s.multiply inReg outReg value).map (State.mapControl f g) := by
  unfold State.multiply
  exact State.mapControl_writeRegAt f g (s.setReg inReg _) _ _

theorem State.mapControl_loadInto (inReg outReg : RegIdx) (value : Word) :
    (s.mapControl f g).loadInto inReg outReg value = (s.loadInto inReg outReg value).map (State.mapControl f g) := by
  unfold State.loadInto
  rw [State.mapControl_effectiveAddress, State.mapControl_memRead]
  cases s.memRead (s.effectiveAddress outReg value) <;> rfl

/-- The end of a handler (R105) looks at neither register: a handler carries them along when its micro-steps do. -/
theorem finish_of_map {r r' : Except Fault State} (h : r' = r.map (State.mapControl f g)) :
    finish r' = mapNext (State.mapControl f g) (finish r) := by
  subst h
  cases r <;> rfl

theorem execSyscall_mapControl (r : RegIdx) (v : Word) :
    execSyscall r v (s.mapControl f g) = mapNext (State.mapControl f g) (execSyscall r v s) := by
  unfold execSyscall
  rw [State.mapControl_cfg, State.mapControl_readConsoleInto]
  split <;> rfl

/-- A conditional jump looks at `flags` only through its relation: with the same `flags` it does the same. -/
theorem exec_mapControl_of_conditional {i : Instr} (hi : i.mnemonic ∈ conditionalJumps)
    (hflags : f s.flags = s.flags) :
    exec i (s.mapControl f g) = mapNext (State.mapControl f g) (exec i s) := by
  have hsame : (s.mapControl f g).flags = s.flags := hflags
  by_cases htaken : JumpTaken i s.flags
  · rw [exec_of_jumpTaken htaken, exec_of_jumpTaken (hsame ▸ htaken)]
    exact finish_of_map f g (State.mapControl_jumpAndPush f g s i.value)
  · rw [exec_of_not_jumpTaken hi htaken, exec_of_not_jumpTaken hi (hsame ▸ htaken)]
    rfl

/-- Every other handler reads neither register. -/
theorem exec_mapControl_of_not_conditional {i : Instr} (hi : i.mnemonic ∉ conditionalJumps) :
    exec i (s.mapControl f g) = mapNext (State.mapControl f g) (exec i s) := by
  cases i with
  | addi | lc | mov => rfl
  | push => exact finish_of_map f g (State.mapControl_pushWord f g s _ fun _ => rfl)
  | pop => exact finish_of_map f g (State.mapControl_popInto f g s _ _)
  | syscall => exact execSyscall_mapControl f g s _ _
  | jmp => exact finish_of_map f g (State.mapControl_jumpAndPush f g s _)
  | ret => exact finish_of_map f g (State.mapControl_returnVia f g s _)
  | mul => exact finish_of_map f g (State.mapControl_multiply f g s _ _ _)
  | loadr => exact finish_of_map f g (State.mapControl_loadInto f g s _ _ _)
  | jne | jeq | jle | jl | jge | jg => simp [conditionalJumps, Instr.mnemonic] at hi

end

/-! ### `frame` -/

/-- No handler reads `frame`. -/
theorem exec_mapFrame (g : Word → Word) (i : Instr) (s : State) :
    exec i (s.mapControl id g) = mapNext (State.mapControl id g) (exec i s) := by
  by_cases hi : i.mnemonic ∈ conditionalJumps
  · exact exec_mapControl_of_conditional id g s hi rfl
  · exact exec_mapControl_of_not_conditional id g s hi

/-- No step reads `frame`: neither the start (R100) nor the fetch (R101) nor the dispatch (R103) does. -/
theorem step_mapFrame (g : Word → Word) (s : State) :
    step (s.mapControl id g) = mapNext (State.mapControl id g) (step s) := by
  cases hstart : s.startRefusal with
  | some r => rw [step_of_refusal hstart, step_of_refusal (s := s.mapControl id g) hstart]; rfl
  | none =>
    have hs := State.startRefusal_eq_none_iff.mp hstart
    by_cases hpc : s.pc.toNat < s.cfg.memSize
    · cases hdec : decode s.cfg.opc (s.mem.read s.pc.toNat) with
      | illegal op => rw [step_of_illegal s hs hpc hdec, step_of_illegal (s.mapControl id g) hs hpc hdec]; rfl
      | instr i =>
        rw [step_of_instr s hs hpc hdec, step_of_instr (s.mapControl id g) hs hpc hdec]
        exact exec_mapFrame g i { s with pc := s.pc + 1 }
    · rw [step_of_fetch_error s hs (Nat.not_lt.mp hpc),
        step_of_fetch_error (s.mapControl id g) hs (Nat.not_lt.mp hpc)]
      rfl

/-- Settles O41: a load sets `frame`, a step has a bounded effect, and `step_mapFrame` with a constant function. -/
theorem frameNeverReadOrWritten : Obligations.FrameNeverReadOrWritten := by
  refine ⟨fun s t image hload => ?_, fun s t hstep => ?_, fun s v => step_mapFrame (fun _ => v) s⟩
  · obtain ⟨entry, ws, -, -, rfl⟩ := State.loadProgram_eq_ok hload
    exact State.loaded_frame s entry ws
  · obtain ⟨-, hframe, -⟩ := (BoundedEffect.of_step hstep).control
    exact hframe

/-! ### `flags` -/

/-- Where a conditional jump with room for its push leaves `pc` (R150): at the target where its relation holds, and
otherwise behind its own word. -/
theorem exec_conditional_pc {i : Instr} {s : State} (hi : i.mnemonic ∈ conditionalJumps)
    (hroom : (s.sp - 1).toNat < s.cfg.memSize) :
    ∃ t, exec i s = .next t ∧ (JumpTaken i s.flags → t.pc = i.value) ∧ (¬ JumpTaken i s.flags → t.pc = s.pc) := by
  by_cases htaken : JumpTaken i s.flags
  · rw [exec_of_jumpTaken htaken, State.jumpAndPush_ok s i.value hroom]
    exact ⟨_, rfl, fun _ => rfl, fun h => absurd htaken h⟩
  · rw [exec_of_not_jumpTaken hi htaken]
    exact ⟨_, rfl, fun h => absurd h htaken, fun _ => rfl⟩

/-- Two values of `flags` that a conditional jump tells apart change where it goes. -/
theorem exec_conditional_reads_flags {i : Instr} {s : State} {f : Word} (hi : i.mnemonic ∈ conditionalJumps)
    (hroom : (s.sp - 1).toNat < s.cfg.memSize) (htarget : i.value ≠ s.pc)
    (hdiff : JumpTaken i f ↔ ¬ JumpTaken i s.flags) :
    exec i { s with flags := f } ≠ mapNext (fun t => { t with flags := f }) (exec i s) := by
  obtain ⟨t, ht, htaken, hnot⟩ := exec_conditional_pc hi hroom
  obtain ⟨u, hu, hutaken, hunot⟩ := exec_conditional_pc (s := { s with flags := f }) hi hroom
  rw [ht, hu]
  intro heq
  have hnext : u = { t with flags := f } := Host.Outcome.next.inj heq
  have hpc : u.pc = t.pc := by rw [hnext]
  by_cases h : JumpTaken i s.flags
  · have hstays : u.pc = s.pc := hunot fun hf => hdiff.mp hf h
    exact htarget ((htaken h).symm.trans (hpc.symm.trans hstays))
  · exact htarget ((hutaken (hdiff.mpr h)).symm.trans (hpc.trans (hnot h)))

/-- On the machine after reset `flags` is 0, `pc` is 0 and the stack is empty: a jump to 5 whose relation tells `f` from
0 goes elsewhere with `f`. -/
theorem exec_reset_reads_flags {i : Instr} {f : Word} (hi : i.mnemonic ∈ conditionalJumps) (htarget : i.value = 5)
    (hdiff : JumpTaken i f ↔ ¬ JumpTaken i 0) :
    exec i { State.reset with flags := f } ≠ mapNext (fun t => { t with flags := f }) (exec i State.reset) :=
  exec_conditional_reads_flags hi (by decide) (htarget ▸ by decide) hdiff

/-- Each of the six tells 0 from 1, from -1 or from both. -/
theorem conditional_reads_flags {m : Mnemonic} (hm : m ∈ conditionalJumps) :
    ∃ (i : Instr) (s : State) (f : Word), i.mnemonic = m ∧
      exec i { s with flags := f } ≠ mapNext (fun t => { t with flags := f }) (exec i s) := by
  cases m with
  | jne => exact ⟨.jne 0 5, .reset, 1, rfl, exec_reset_reads_flags hm rfl (by simp [JumpTaken])⟩
  | jeq => exact ⟨.jeq 0 5, .reset, 1, rfl, exec_reset_reads_flags hm rfl (by simp [JumpTaken])⟩
  | jle => exact ⟨.jle 0 5, .reset, 1, rfl, exec_reset_reads_flags hm rfl (by simp [JumpTaken])⟩
  | jl => exact ⟨.jl 0 5, .reset, -1, rfl, exec_reset_reads_flags hm rfl (by simp [JumpTaken])⟩
  | jge => exact ⟨.jge 0 5, .reset, -1, rfl, exec_reset_reads_flags hm rfl (by simp [JumpTaken])⟩
  | jg => exact ⟨.jg 0 5, .reset, 1, rfl, exec_reset_reads_flags hm rfl (by simp [JumpTaken])⟩
  | addi | lc | push | pop | syscall | jmp | ret | mov | mul | loadr => exact absurd hm (by decide)

/-- Settles O40: handlers have a bounded effect, only the six look at `flags`, and each of the six does on a machine
after reset. -/
theorem flagsReadOnlyByConditionalJumps : Obligations.FlagsReadOnlyByConditionalJumps := by
  refine ⟨fun i s t hexec => ?_, fun i s f hi => ?_, fun m hm => conditional_reads_flags hm⟩
  · obtain ⟨hflags, -, -⟩ := (BoundedEffect.of_exec hexec).control
    exact hflags
  · exact exec_mapControl_of_not_conditional (fun _ => f) id s hi

end Sys2Proof.Machine
end

section
/-! PROOFS (spec/10_state.md R29, R37, R38). The values construction and `load_program` leave, and `set_flags`. -/

namespace Sys2Proof.Machine

/-- `load_program` leaves the registers as construction does. -/
theorem State.loaded_reg (s : State) (e : Word) (ws : List Word) (r : RegIdx) :
    (s.loaded e ws).reg r = if r = spReg then s.cfg.stackTop else 0 := State.construct_reg s.cfg r

/-- After `load_program`, `M[a]` is the a-th word of the image, and 0 past its end. -/
theorem State.loaded_read (s : State) (e : Word) (ws : List Word) (a : Nat) :
    (s.loaded e ws).mem.read a = ws.getD a 0 := by
  simpa using Memory.read_ofWords 0 a ws

/-- Settles O45: an image that fits is accepted, and the state it leaves is `State.loaded`. -/
theorem loadProgramResetsEverything : Obligations.LoadProgramResetsEverything := by
  intro s entry ws hlen
  refine ⟨s.loaded entry ws, State.loadProgram_ok s entry ws hlen, rfl, rfl, rfl, State.loaded_reg s entry ws,
    rfl, rfl, fun a ha => ?_, fun a ha => ?_⟩
  · rw [State.loaded_read, List.getD_eq_getElem ws 0 ha]
  · rw [State.loaded_read, List.getD_eq_default ws 0 ha]

/-- Settles O44: the fields of `State.construct`, register 14 apart from the others. -/
theorem constructionValues : Obligations.ConstructionValues := fun c =>
  ⟨fun hc => if_pos hc, rfl, rfl, State.construct_reg c, rfl, rfl, rfl, Memory.read_nil⟩

/-- Settles O48: `set_flags` is refused exactly where an `exec` may not start. -/
theorem setFlagsWritesOnlyFlags : Obligations.SetFlagsWritesOnlyFlags := by
  refine fun s v => ⟨State.setFlags_of_startable s v, fun hs => ?_⟩
  obtain ⟨r, hr⟩ := Option.ne_none_iff_exists'.mp (mt State.startRefusal_eq_none_iff.mp hs)
  exact ⟨r, State.setFlags_of_refusal v hr⟩

end Sys2Proof.Machine
end

section
/-! PROOFS (spec/20_memory.md R52, R53, R63, R65). The two memory accesses, the exact effect of every instruction on
memory, and the fetch of a stored word. -/

namespace Sys2Proof.Machine

/-- Settles O16: each access at an address below MEM_SIZE and from MEM_SIZE upward. -/
theorem memoryAccessIsBoundsChecked : Obligations.MemoryAccessIsBoundsChecked := by
  refine fun s a v => ⟨State.memRead_ok s a,
    fun hout => ⟨State.memRead_error s a hout, State.memWrite_error s a v hout⟩,
    fun hin => ⟨s.setMem (s.mem.write a.toNat v), State.memWrite_ok s a v hin, ?_, fun b hb => ?_, rfl⟩⟩
  · exact Memory.read_write_same s.mem a.toNat v
  · exact Memory.read_write_other s.mem a.toNat b v (by simpa using hb)

/-! ### The exact effect of an instruction on memory -/

/-- A taken jump stores the return address below the stack pointer (R150). -/
theorem storedAt_of_jumpTaken {i : Instr} {s : State} (h : JumpTaken i s.flags) :
    storedAt i s = some (s.sp - 1).toNat ∧ storedWord i s = some s.pc := by
  cases i
  case jmp => exact ⟨rfl, rfl⟩
  case jne => exact ⟨if_pos ((condNe_iff _).mpr h), rfl⟩
  case jeq => exact ⟨if_pos ((condEq_iff _).mpr h), rfl⟩
  case jle => exact ⟨if_pos ((condLe_iff _).mpr h), rfl⟩
  case jl => exact ⟨if_pos ((condLt_iff _).mpr h), rfl⟩
  case jge => exact ⟨if_pos ((condGe_iff _).mpr h), rfl⟩
  case jg => exact ⟨if_pos ((condGt_iff _).mpr h), rfl⟩
  all_goals exact h.elim

/-- A conditional jump whose relation fails stores nothing (R150). -/
theorem storedAt_of_not_jumpTaken {i : Instr} {s : State} (hi : i.mnemonic ∈ conditionalJumps)
    (h : ¬ JumpTaken i s.flags) : storedAt i s = none := by
  cases i
  case jne => exact if_neg (mt (condNe_iff _).mp h)
  case jeq => exact if_neg (mt (condEq_iff _).mp h)
  case jle => exact if_neg (mt (condLe_iff _).mp h)
  case jl => exact if_neg (mt (condLt_iff _).mp h)
  case jge => exact if_neg (mt (condGe_iff _).mp h)
  case jg => exact if_neg (mt (condGt_iff _).mp h)
  all_goals simp [conditionalJumps, Instr.mnemonic] at hi

/-- No service of `syscall` stores: each writes a register, the console or `run_state`. -/
theorem execSyscall_mem {s t : State} {r : RegIdx} {v : Word} (h : execSyscall r v s = .next t) : t.mem = s.mem := by
  rcases execSyscall_cases r v s with ⟨-, he⟩ | ⟨-, he⟩ | ⟨-, he⟩ | ⟨-, he⟩ | ⟨-, he⟩ <;>
    obtain rfl := Host.Outcome.next.inj (he.symm.trans h) <;> simp

/-- What `i` has done to memory between `s` and `t`, exactly: nothing where `storedAt` gives no address, and otherwise
one store, inside memory, of the word `storedWord` gives. -/
inductive StoreEffect (i : Instr) (s t : State) : Prop where
  | keeps (hat : storedAt i s = none) (hmem : t.mem = s.mem)
  | stores (a : Nat) (w : Word) (hat : storedAt i s = some a) (hword : storedWord i s = some w)
      (hbound : a < s.cfg.memSize) (hmem : t.mem = s.mem.write a w)

namespace StoreEffect

/-- The end of a handler (R105) writes `run_state` only. -/
theorem of_finish {i : Instr} {s t : State} {r : Except Fault State} (hr : ∀ u, r = .ok u → StoreEffect i s u)
    (h : finish r = .next t) : StoreEffect i s t := by
  obtain ⟨u, hu, rfl⟩ := finish_eq_next_iff.mp h
  cases hr u hu with
  | keeps hat hmem => exact .keeps hat hmem
  | stores a w hat hword hbound hmem => exact .stores a w hat hword hbound hmem

theorem of_finish_setReg {i : Instr} {s t : State} {r : RegIdx} {v : Word} (hat : storedAt i s = none)
    (h : finish (.ok (s.setReg r v)) = .next t) : StoreEffect i s t :=
  of_finish (r := .ok (s.setReg r v)) (fun _ hu => Except.ok.inj hu ▸ .keeps hat rfl) h

/-- `push`: register 14 is read after its decrement (R130; log 12). -/
theorem of_push {s t : State} {reg : RegIdx} {value : Word}
    (h : s.pushWord (fun s₁ => s₁.regPlus reg value) = .ok t) : StoreEffect (.push reg value) s t := by
  obtain ⟨hbound, rfl⟩ := State.pushWord_eq_ok h
  have hword : (s.setSp (s.sp - 1)).regPlus reg value = (if reg = spReg then s.sp - 1 else s.reg reg) + value := by
    rw [State.regPlus, State.reg_setSp]
  exact .stores _ _ rfl (congrArg some hword.symm) hbound rfl

/-- `pop`: the slot is cleared at the stack pointer after the register write (R131; log 12). -/
theorem of_pop {s t : State} {reg : RegIdx} {value : Word} (h : s.popInto reg value = .ok t) :
    StoreEffect (.pop reg value) s t := by
  obtain ⟨p, hp, -, hbound, rfl⟩ := State.popInto_eq_ok h
  have hat : storedAt (.pop reg value) s = some p.toNat := by
    rw [hp, State.sp_setReg]
    simp only [storedAt, eq_comm]
  exact .stores p.toNat 0 hat rfl hbound rfl

theorem of_jumpTaken {i : Instr} {s t : State} (htaken : JumpTaken i s.flags) (h : exec i s = .next t) :
    StoreEffect i s t := by
  obtain ⟨hat, hword⟩ := storedAt_of_jumpTaken htaken
  rw [exec_of_jumpTaken htaken] at h
  refine of_finish (fun u hu => ?_) h
  obtain ⟨hbound, rfl⟩ := State.jumpAndPush_eq_ok hu
  exact .stores _ _ hat hword hbound rfl

theorem of_conditional {i : Instr} {s t : State} (hi : i.mnemonic ∈ conditionalJumps) (h : exec i s = .next t) :
    StoreEffect i s t := by
  by_cases htaken : JumpTaken i s.flags
  · exact of_jumpTaken htaken h
  · rw [exec_of_not_jumpTaken hi htaken] at h
    exact of_finish (fun u hu => Except.ok.inj hu ▸ .keeps (storedAt_of_not_jumpTaken hi htaken) rfl) h

/-- Every handler. -/
theorem of_exec {i : Instr} {s t : State} (h : exec i s = .next t) : StoreEffect i s t := by
  cases i with
  | addi | lc | mov => exact of_finish_setReg rfl h
  | push => exact of_finish (fun _ => of_push) h
  | pop => exact of_finish (fun _ => of_pop) h
  | syscall => exact .keeps rfl (execSyscall_mem h)
  | jmp => exact of_jumpTaken trivial h
  | jne | jeq | jle | jl | jge | jg => exact of_conditional (by simp [conditionalJumps, Instr.mnemonic]) h
  | ret =>
    refine of_finish (fun u hu => ?_) h
    obtain ⟨-, rfl⟩ := State.returnVia_eq_ok hu
    exact .keeps rfl rfl
  | mul =>
    refine of_finish (fun u hu => ?_) h
    obtain ⟨q, lo, hi, rfl⟩ := State.multiply_eq_ok hu
    exact .keeps rfl rfl
  | loadr =>
    refine of_finish (fun u hu => ?_) h
    obtain ⟨-, rfl⟩ := State.loadInto_eq_ok hu
    exact .keeps rfl rfl

end StoreEffect

/-- A stored word stands in memory where the instruction stored it, inside the address space. -/
theorem read_of_stored {i : Instr} {s t : State} {a : Nat} {w : Word} (h : exec i s = .next t)
    (hat : storedAt i s = some a) (hword : storedWord i s = some w) : t.mem.read a = w ∧ a < s.cfg.memSize := by
  cases StoreEffect.of_exec h with
  | keeps hnone => cases hnone.symm.trans hat
  | stores b v hb hv hbound hmem =>
    obtain rfl := Option.some.inj (hb.symm.trans hat)
    obtain rfl := Option.some.inj (hv.symm.trans hword)
    exact ⟨hmem ▸ Memory.read_write_same s.mem b v, hbound⟩

/-- Settles O38: the one store of `StoreEffect` is read at no other address. -/
theorem memoryWrittenOnlyThroughStackPointer : Obligations.MemoryWrittenOnlyThroughStackPointer := by
  intro i s t h b hb
  cases StoreEffect.of_exec h with
  | keeps hat hmem => rw [hmem]
  | stores a w hat hword hbound hmem =>
    have hne : b ≠ a := by simpa [hat] using hb
    rw [hmem, Memory.read_write_other s.mem a b w hne]

/-! ### The fetch of a stored word -/

/-- Settles O53: at the stored word's address, which the store's own check has put inside memory, the fetch reads the
word and the step goes by what it decodes to. -/
theorem storedWordIsFetched : Obligations.StoredWordIsFetched := by
  rintro i s t u a w h hat hword hcfg rfl hsame
  obtain ⟨hread, hbound⟩ := read_of_stored h hat hword
  rw [← hcfg] at hbound ⊢
  rw [hread] at hsame
  refine ⟨?_, fun hu j hj => ?_, fun hu op hop => ?_⟩
  · rw [State.fetch_ok u hbound, hsame]
  · exact step_of_instr u hu hbound (hsame.symm ▸ hj)
  · exact step_of_illegal u hu hbound (hsame.symm ▸ hop)

/-- `push` with room completes, `pc` still behind its own word, and another `exec` may start (R130, R105). -/
theorem exec_push_completes (reg : RegIdx) (value : Word) (s : State) (hroom : (s.sp - 1).toNat < s.cfg.memSize) :
    ∃ t, exec (.push reg value) s = .next t ∧ t.cfg = s.cfg ∧ t.pc = s.pc ∧ t.Startable := by
  rw [exec_push, State.pushWord_ok s _ hroom]
  exact ⟨_, rfl, rfl, rfl, .inr rfl⟩

/-- Settles O39: a fetch of a stored word, in the state that `push` itself leaves. -/
theorem pushedWordIsFetched : Obligations.PushedWordIsFetched := by
  intro reg value s i hreg hroom hpc hdec
  obtain ⟨t, hexec, hcfg, htpc, hstart⟩ := exec_push_completes reg value s hroom
  have hword : storedWord (.push reg value) s = some (s.reg reg + value) := by simp only [storedWord, if_neg hreg]
  have hat : t.pc.toNat = (s.sp - 1).toNat := congrArg BitVec.toNat (htpc.trans hpc)
  obtain ⟨-, hstep, -⟩ := storedWordIsFetched _ s t t _ _ hexec rfl hword hcfg hat rfl
  exact ⟨t, hexec, hstep hstart i hdec⟩

end Sys2Proof.Machine
end

section
/-! PROOFS (spec/30_encoding.md R76 to R79). The three formats: each encoder against its decoder in both directions, the
value a decoder reads, and the encoded word as a number. -/

namespace Sys2Proof

/-! ### Round trips -/

theorem decodeRI_encodeRI (f : RegFields) (h : inRangeRI f.value) : decodeRI (encodeRI f) = f := by
  have hreg : regField (encodeRI f) = f.reg := regField_append _ _ _
  have hvalue : (encodeRI f).extractLsb' 0 20 = f.value.setWidth 20 := extractLsb_append_20 _ _
  rw [decodeRI, opcodeField_encodeRI, hreg, hvalue, sext20_setWidth _ h]

theorem decodeRM_encodeRM (f : RegFields) (h : inRangeRM f.value) : decodeRM (encodeRM f) = f := by
  have hreg : regField (encodeRM f) = f.reg := regField_append _ _ _
  have hvalue : (encodeRM f).extractLsb' 0 20 = f.value.setWidth 20 := extractLsb_append_20 _ _
  rw [decodeRM, opcodeField_encodeRM, hreg, hvalue, zext20_setWidth _ h]

theorem decodeRR_encodeRR (f : RegRegFields) (h : inRangeRR f.value) : decodeRR (encodeRR f) = f := by
  have hin : regField (encodeRR f) = f.inReg := regField_appendRR _ _ _ _
  have hout : outRegField (encodeRR f) = f.outReg := outRegField_appendRR _ _ _ _
  have hvalue : (encodeRR f).extractLsb' 0 16 = f.value.setWidth 16 := extractLsb_append_16 _ _
  rw [decodeRR, opcodeField_encodeRR, hin, hout, hvalue, sext16_setWidth _ h]

theorem encodeRI_decodeRI (w : Word) : encodeRI (decodeRI w) = w := by
  simp only [encodeRI, decodeRI, setWidth_sext20, append_fields_20]

theorem encodeRM_decodeRM (w : Word) : encodeRM (decodeRM w) = w := by
  simp only [encodeRM, decodeRM, setWidth_zext20, append_fields_20]

theorem encodeRR_decodeRR (w : Word) : encodeRR (decodeRR w) = w := by
  simp only [encodeRR, decodeRR, setWidth_sext16, append_fields_16]

/-- Settles O9: truncation undoes the extension on every word, and the extension undoes truncation in range. -/
theorem formatsRoundTrip : Obligations.FormatsRoundTrip :=
  ⟨decodeRI_encodeRI, decodeRM_encodeRM, decodeRR_encodeRR,
    fun w => ⟨encodeRI_decodeRI w, encodeRM_decodeRM w, encodeRR_decodeRR w⟩⟩

/-! ### The decoded value -/

theorem toInt_sext20 (v : BitVec 20) : (sext20 v).toInt = v.toInt := BitVec.toInt_signExtend_of_le (by decide)

theorem toInt_sext16 (v : BitVec 16) : (sext16 v).toInt = v.toInt := BitVec.toInt_signExtend_of_le (by decide)

theorem toNat_zext20 (v : BitVec 20) : (zext20 v).toNat = v.toNat :=
  BitVec.toNat_setWidth_of_le (by decide)

/-- The zero extension leaves bit 31 clear, so the signed and the unsigned reading agree. -/
theorem toInt_zext20 (v : BitVec 20) : (zext20 v).toInt = v.toNat := by
  have hlt := v.isLt
  rw [BitVec.toInt_eq_toNat_of_lt (by rw [toNat_zext20]; omega), toNat_zext20]

/-- The top bit of the low `k + 1` bits of a word is the word's bit `k`. -/
theorem msb_extractLsb'_zero (w : Word) (k : Nat) : (w.extractLsb' 0 (k + 1)).msb = w.getLsbD k := by
  simp [BitVec.msb_eq_getLsbD_last]

theorem inRangeRI_sext20 (v : BitVec 20) : inRangeRI (sext20 v) := by
  have hlow := v.le_toInt
  have hhigh := v.toInt_lt
  simp only [inRangeRI, toInt_sext20, Bool.and_eq_true, decide_eq_true_eq]
  omega

theorem inRangeRR_sext16 (v : BitVec 16) : inRangeRR (sext16 v) := by
  have hlow := v.le_toInt
  have hhigh := v.toInt_lt
  simp only [inRangeRR, toInt_sext16, Bool.and_eq_true, decide_eq_true_eq]
  omega

theorem inRangeRM_zext20 (v : BitVec 20) : inRangeRM (zext20 v) := by
  have hlt := v.isLt
  simp only [inRangeRM, toNat_zext20, decide_eq_true_eq]
  omega

/-- Settles O10: sign extension keeps the signed reading of the field, zero extension the unsigned one. -/
theorem signExtensionLaw : Obligations.SignExtensionLaw := by
  intro w
  refine ⟨?_, ?_, toNat_zext20 _, ?_⟩
  · rw [← msb_extractLsb'_zero w 19, decodeRI, toInt_sext20]
    exact BitVec.toInt_eq_msb_cond _
  · rw [← msb_extractLsb'_zero w 15, decodeRR, toInt_sext16]
    exact BitVec.toInt_eq_msb_cond _
  · rw [decodeRM, toInt_zext20]
    exact Int.natCast_nonneg _

/-! ### The encoded word as a number -/

theorem toNat_append_eq_add {m n : Nat} (a : BitVec m) (b : BitVec n) :
    (a ++ b).toNat = a.toNat * 2 ^ n + b.toNat := by
  rw [BitVec.toNat_append, ← Nat.shiftLeft_add_eq_or_of_lt b.isLt, Nat.shiftLeft_eq]

/-- Truncation reduces the signed value modulo 2^k (R78), since 2^k divides 2^32. -/
theorem toNat_setWidth_eq_toInt_emod (v : Word) {k : Nat} (hk : k ≤ 32) :
    ((v.setWidth k).toNat : Int) = v.toInt % 2 ^ k := by
  have hdvd : (2 ^ k : Int) ∣ (2 ^ 32 : Nat) := by exact_mod_cast pow_dvd_pow 2 hk
  calc ((v.setWidth k).toNat : Int) = v.toNat % 2 ^ k := by rw [BitVec.toNat_setWidth]; push_cast; rfl
    _ = v.toNat % (2 ^ 32 : Nat) % 2 ^ k := (Int.emod_emod_of_dvd _ hdvd).symm
    _ = (v.toNat : Int).bmod (2 ^ 32) % (2 ^ 32 : Nat) % 2 ^ k := by rw [Int.bmod_emod]
    _ = v.toInt % 2 ^ k := by rw [Int.emod_emod_of_dvd _ hdvd, ← BitVec.toInt_eq_toNat_bmod]

theorem toNat_encodeRI (f : RegFields) :
    (encodeRI f).toNat = f.op.toNat * 2 ^ 24 + f.reg.val * 2 ^ 20 + (f.value.setWidth 20).toNat := by
  simp only [encodeRI, toNat_append_eq_add, BitVec.toNat_ofFin]
  ring

theorem toNat_encodeRM (f : RegFields) :
    (encodeRM f).toNat = f.op.toNat * 2 ^ 24 + f.reg.val * 2 ^ 20 + (f.value.setWidth 20).toNat :=
  toNat_encodeRI f

theorem toNat_encodeRR (f : RegRegFields) :
    (encodeRR f).toNat =
      f.op.toNat * 2 ^ 24 + f.inReg.val * 2 ^ 20 + f.outReg.val * 2 ^ 16 + (f.value.setWidth 16).toNat := by
  simp only [encodeRR, toNat_append_eq_add, BitVec.toNat_ofFin]
  ring

/-- Settles O11: concatenation is a shifted sum; the range matters for RM only, whose address is stored unreduced. -/
theorem encoderIsTheShiftedSum : Obligations.EncoderIsTheShiftedSum := by
  refine ⟨fun f _ => ?_, fun f h => ?_, fun f _ => ?_⟩
  · rw [toNat_encodeRI, ← toNat_setWidth_eq_toInt_emod f.value (by decide)]
    push_cast
    rfl
  · rw [toNat_encodeRM, ← toNat_zext20, zext20_setWidth f.value h]
  · rw [toNat_encodeRR, ← toNat_setWidth_eq_toInt_emod f.value (by decide)]
    push_cast
    rfl

end Sys2Proof
end

section
/-! PROOFS (spec/30_encoding.md R79, R84, R92). Whole instructions: the decoder and the encoder undo each other under
every `OPC`, and the spec's worked words. -/

namespace Sys2Proof

/-- The opcode byte of an encoded instruction, for all sixteen (R71, R78, R84). -/
theorem opcodeField_encode (o : Opcodes) (i : Instr) : opcodeField (encode o i) = o.code i.mnemonic := by
  cases i with
  | addi | lc | push | pop | syscall => exact opcodeField_encodeRI _
  | jmp | jne | jeq | jle | jl | jge | jg | ret => exact opcodeField_encodeRM _
  | mov | mul | loadr => exact opcodeField_encodeRR _

/-- The operands of a well-formed instruction are read back from its word by its own mnemonic's format (R79, R104). -/
theorem operandsOf_encode (o : Opcodes) {i : Instr} (h : i.wf) : operandsOf i.mnemonic (encode o i) = i := by
  cases i with
  | addi r v | lc r v | push r v | pop r v | syscall r v =>
    simp only [Instr.mnemonic, operandsOf, encode, decodeRI_encodeRI ⟨_, r, v⟩ h]
  | jmp r v | jne r v | jeq r v | jle r v | jl r v | jge r v | jg r v | ret r v =>
    simp only [Instr.mnemonic, operandsOf, encode, decodeRM_encodeRM ⟨_, r, v⟩ h]
  | mov a b v | mul a b v | loadr a b v =>
    simp only [Instr.mnemonic, operandsOf, encode, decodeRR_encodeRR ⟨_, a, b, v⟩ h]

/-- Settles O12: the opcode byte selects the instruction's mnemonic, since `OPC` is injective, and that mnemonic's
format gives back the operands. -/
theorem decodeOfEncode : Obligations.DecodeOfEncode := by
  intro o i hinj hwf
  rw [decode_of_code hinj (opcodeField_encode o i), operandsOf_encode o hwf]

/-- Whatever is read from a word is in the range of its format (R73 to R75). -/
theorem wf_operandsOf (m : Mnemonic) (w : Word) : (operandsOf m w).wf := by
  cases m with
  | addi | lc | push | pop | syscall => exact inRangeRI_sext20 _
  | jmp | jne | jeq | jle | jl | jge | jg | ret => exact inRangeRM_zext20 _
  | mov | mul | loadr => exact inRangeRR_sext16 _

/-- The operands read from a word, under the mnemonic of its own opcode byte, encode to that word (R79). -/
theorem encode_operandsOf {o : Opcodes} {m : Mnemonic} {w : Word} (h : o.code m = opcodeField w) :
    encode o (operandsOf m w) = w := by
  have hRI : encodeRI ⟨o.code m, (decodeRI w).reg, (decodeRI w).value⟩ = w := h ▸ encodeRI_decodeRI w
  have hRM : encodeRM ⟨o.code m, (decodeRM w).reg, (decodeRM w).value⟩ = w := h ▸ encodeRM_decodeRM w
  have hRR : encodeRR ⟨o.code m, (decodeRR w).inReg, (decodeRR w).outReg, (decodeRR w).value⟩ = w :=
    h ▸ encodeRR_decodeRR w
  cases m with
  | addi | lc | push | pop | syscall => exact hRI
  | jmp | jne | jeq | jle | jl | jge | jg | ret => exact hRM
  | mov | mul | loadr => exact hRR

/-- Settles O13: a word that decodes is read by the mnemonic of its own opcode byte; no injectivity is needed. -/
theorem encodeOfDecode : Obligations.EncodeOfDecode := by
  intro o w i hdec
  obtain ⟨hill, -⟩ | ⟨m, hcode, hm⟩ := decode_cases o w
  · cases hill.symm.trans hdec
  · obtain rfl := Decoded.instr.inj (hm.symm.trans hdec)
    exact ⟨encode_operandsOf hcode, wf_operandsOf m w⟩

/-- Settles O14: closed words, evaluated. -/
theorem workedEncodings : Obligations.WorkedEncodings := by
  unfold Obligations.WorkedEncodings
  decide

end Sys2Proof
end

section
/-! PROOFS (spec/30_encoding.md R80, R85). What the machine does with the unassigned opcodes and the ignored fields. -/

namespace Sys2Proof

/-- A word decodes to an instruction exactly when some mnemonic has its opcode byte (R103, R107). -/
theorem decode_eq_instr_iff (o : Opcodes) (w : Word) :
    (∃ i, decode o w = .instr i) ↔ ∃ m, o.code m = opcodeField w := by
  obtain ⟨hill, hnone⟩ | ⟨m, hcode, hm⟩ := decode_cases o w
  · simp [hill, hnone]
  · exact ⟨fun _ => ⟨m, hcode⟩, fun _ => ⟨_, hm⟩⟩

/-- The default numbers of R84, in rising order. -/
def defaultOpcodeNumbers : List Nat := [1, 3, 6, 12, 24, 38, 39, 42, 46, 47, 48, 49, 50, 51, 52, 68]

theorem default_code_perm :
    (Mnemonic.all.map fun m => (Opcodes.default.code m).toNat).Perm defaultOpcodeNumbers := by decide

theorem exists_default_code_iff (op : BitVec 8) :
    (∃ m, Opcodes.default.code m = op) ↔ op.toNat ∈ defaultOpcodeNumbers := by
  simp [← default_code_perm.mem_iff, Mnemonic.mem_all, BitVec.toNat_inj]

theorem default_code_ne_zero (m : Mnemonic) : Opcodes.default.code m ≠ 0 := fun h =>
  absurd ((exists_default_code_iff 0).mp ⟨m, h⟩) (by decide)

end Sys2Proof

namespace Sys2Proof.Machine

/-- A fetched word whose opcode byte is no mnemonic's faults with that byte (R85, R103). -/
theorem step_of_unassigned {s : State} (hs : s.Startable) (hpc : s.pc.toNat < s.cfg.memSize)
    (hop : ∀ m, s.cfg.opc.code m ≠ opcodeField (s.mem.read s.pc.toNat)) :
    step s = .fault (.dispatch (opcodeField (s.mem.read s.pc.toNat)) s.pc) :=
  step_of_illegal s hs hpc (decode_illegal hop)

/-- Settles O5: the decoder answers illegal for a byte no mnemonic has, and 0 is none of the default numbers. -/
theorem unassignedOpcodesAreIllegal : Obligations.UnassignedOpcodesAreIllegal := by
  refine ⟨?_, fun w => ?_, fun s hs hpc hcfg hzero => ?_⟩
  · rintro s op hs hpc rfl hop
    exact step_of_unassigned hs hpc hop
  · exact (decode_eq_instr_iff _ w).trans (exists_default_code_iff _)
  · have hbyte : opcodeField (s.mem.read s.pc.toNat) = 0 := by rw [hzero]; decide
    have hnone : ∀ m, s.cfg.opc.code m ≠ 0 := hcfg ▸ default_code_ne_zero
    rw [← hbyte] at hnone ⊢
    exact step_of_unassigned hs hpc hnone

/-- The exit service reads no register (R141). -/
theorem execSyscall_of_exit (r : RegIdx) {v : Word} {s : State} (h : v.toInt = s.cfg.sys.exit) :
    execSyscall r v s = .next (s.halt .exit) := by
  rw [execSyscall, serviceOf, if_pos h]

/-- The fallback names the code and no register (R146). -/
theorem execSyscall_of_unknown (r : RegIdx) {v : Word} {s : State} (h : v.toInt ∉ s.cfg.sys.toList) :
    execSyscall r v s = .next ((s.consoleOut (.diag v)).halt (.unknownSyscall v.toInt)) := by
  obtain ⟨hexit, hreadInt, hprintInt, hreadChar, hwriteChar⟩ :
      v.toInt ≠ s.cfg.sys.exit ∧ v.toInt ≠ s.cfg.sys.readInt ∧ v.toInt ≠ s.cfg.sys.printInt ∧
        v.toInt ≠ s.cfg.sys.readChar ∧ v.toInt ≠ s.cfg.sys.writeChar := by
    simpa [SysCodes.toList] using h
  rw [execSyscall, serviceOf, if_neg hexit, if_neg hreadInt, if_neg hprintInt, if_neg hreadChar, if_neg hwriteChar]

/-- Settles O15: the eight RM handlers take no register, and neither do the two halting arms of `syscall`. -/
theorem ignoredFieldsHaveNoEffect : Obligations.IgnoredFieldsHaveNoEffect := by
  intro r r' v s
  refine ⟨rfl, rfl, rfl, rfl, rfl, rfl, rfl, rfl, fun h => ?_⟩
  rw [exec_syscall, exec_syscall]
  obtain hexit | hunknown := h
  · rw [execSyscall_of_exit r hexit, execSyscall_of_exit r' hexit]
  · rw [execSyscall_of_unknown r hunknown, execSyscall_of_unknown r' hunknown]

end Sys2Proof.Machine
end

section
/-! PROOFS (spec/40_fetch_decode_dispatch.md R100 to R106, R109, R114). The fetch, the dispatch and the checked register
write; when a step is refused; and the `run_state` every transaction of the host leaves. -/

namespace Sys2Proof.Machine

/-! ### Fetch, dispatch and the register file -/

/-- The advance does not wrap where memory leaves the last Word out as an address (R26). -/
theorem toNat_add_one_of_lt {w : Word} {n : Nat} (hw : w.toNat < n) (hn : n ≤ 2 ^ 32 - 1) :
    (w + 1).toNat = w.toNat + 1 :=
  BitVec.toNat_add_of_lt (show w.toNat + 1 < 2 ^ 32 by omega)

/-- Settles O1: the step past its refusal, fetch and dispatch is the handler. -/
theorem stepRunsDecodedInstruction : Obligations.StepRunsDecodedInstruction :=
  fun s _ hs hsize hpc hdec => ⟨step_of_instr s hs hpc hdec, toNat_add_one_of_lt hpc hsize⟩

/-- Settles O2: the two sides of the fetch's bounds check. -/
theorem fetchIsBoundsChecked : Obligations.FetchIsBoundsChecked :=
  fun s => ⟨State.fetch_ok s, fun hpc hs => step_of_fetch_error s hs hpc⟩

/-- Settles O3: the lookup is by the opcode byte, and `OPC` being injective it finds no other mnemonic. -/
theorem dispatchSelectsByOpcodeAlone : Obligations.DispatchSelectsByOpcodeAlone := by
  refine fun o w hinj => ⟨fun m hm => ?_, decode_illegal, ?_⟩
  · exact ⟨operandsOf m w, decode_of_code hinj hm.symm, mnemonic_operandsOf m w⟩
  · rintro s hs hpc rfl rfl hnone
    exact step_of_unassigned hs hpc hnone

/-- Settles O17: the write below 16 is `State.setReg`, and from 16 upward it faults. -/
theorem registerWriteIsChecked : Obligations.RegisterWriteIsChecked := by
  refine fun s n v => ⟨fun hn => ⟨s.setReg ⟨n, hn⟩ v, State.writeRegAt_ok s n v hn, ?_, fun q hq => ?_, rfl⟩,
    State.writeRegAt_error s n v⟩
  · exact State.reg_setReg_same s ⟨n, hn⟩ v
  · exact State.reg_setReg_other s ⟨n, hn⟩ q v (by simpa using hq)

/-! ### When a transaction is refused -/

theorem State.startRefusal_of_unloaded {s : State} (h : s.runState = .unloaded) :
    s.startRefusal = some .notLoaded := by
  rw [State.startRefusal, h]

theorem State.startRefusal_of_halted {s : State} {r : HaltReason} (h : s.runState = .halted r) :
    s.startRefusal = some (.alreadyHalted r) := by
  rw [State.startRefusal, h]

theorem State.startRefusal_of_faulted {s : State} {f : Fault} (h : s.runState = .faulted f) :
    s.startRefusal = some (.alreadyFaulted f) := by
  rw [State.startRefusal, h]

theorem State.exists_startRefusal_of_not_startable {s : State} (h : ¬ s.Startable) :
    ∃ r, s.startRefusal = some r :=
  Option.ne_none_iff_exists'.mp (mt State.startRefusal_eq_none_iff.mp h)

/-- A step that may start ends in the fetch, in the dispatch or in a handler, and none of the three refuses. -/
theorem step_ne_refused {s : State} (h : s.Startable) (r : Refusal) : step s ≠ .refused r := by
  by_cases hpc : s.pc.toNat < s.cfg.memSize
  · cases hdec : decode s.cfg.opc (s.mem.read s.pc.toNat) with
    | illegal op => simp [step_of_illegal s h hpc hdec]
    | instr i => rw [step_of_instr s h hpc hdec]; exact exec_ne_refused i _ r
  · simp [step_of_fetch_error s h (Nat.not_lt.mp hpc)]

theorem step_refused_iff (s : State) : (∃ r, step s = .refused r) ↔ ¬ s.Startable := by
  constructor
  · rintro ⟨r, hr⟩ hs
    exact step_ne_refused hs r hr
  · intro hs
    obtain ⟨r, hr⟩ := State.exists_startRefusal_of_not_startable hs
    exact ⟨r, step_of_refusal hr⟩

/-- Settles O6: no handler refuses, so the check of `run_state` is the only refusal of a step. -/
theorem execRefusedExactlyOutsideReadyAndRunning : Obligations.ExecRefusedExactlyOutsideReadyAndRunning :=
  ⟨step_refused_iff,
    fun _ h => State.execTransaction_of_refused (State.startRefusal_of_unloaded h),
    fun _ _ h => State.execTransaction_of_refused (State.startRefusal_of_halted h),
    fun _ _ h => State.execTransaction_of_refused (State.startRefusal_of_faulted h)⟩

/-! ### The run state a transaction leaves -/

theorem runState_of_finish {r : Except Fault State} {t : State} (h : finish r = .next t) : t.runState = .running := by
  obtain ⟨u, -, rfl⟩ := finish_eq_next_iff.mp h
  exact State.keepRunning_runState u

/-- The codes whose `syscall` ends the run: the exit service's, and those of no service (R141, R146). -/
abbrev EndsRun (c : SysCodes) (code : Int) : Prop := code = c.exit ∨ code ∉ c.toList

theorem execSyscall_runState {reg : RegIdx} {value : Word} {s t : State} (h : execSyscall reg value s = .next t) :
    t.runState = .running ∨ EndsRun s.cfg.sys value.toInt ∧ ∃ r, t.runState = .halted r := by
  rcases execSyscall_cases reg value s with
      ⟨hexit, he⟩ | ⟨-, he⟩ | ⟨-, he⟩ | ⟨-, he⟩ | ⟨hunknown, he⟩ <;>
    obtain rfl := Host.Outcome.next.inj (he.symm.trans h)
  · exact .inr ⟨.inl hexit, .exit, rfl⟩
  · exact .inl rfl
  · exact .inl rfl
  · exact .inl rfl
  · exact .inr ⟨.inr hunknown, .unknownSyscall value.toInt, rfl⟩

/-- A handler that completes leaves Running, except the two halting arms of `syscall` (R105). -/
theorem exec_runState {i : Instr} {s t : State} (h : exec i s = .next t) :
    t.runState = .running ∨
      ∃ reg value, i = .syscall reg value ∧ EndsRun s.cfg.sys value.toInt ∧ ∃ r, t.runState = .halted r := by
  cases i with
  | syscall reg value => exact (execSyscall_runState h).imp_right fun hhalt => ⟨reg, value, rfl, hhalt⟩
  | addi | lc | mov => exact .inl (runState_of_finish (r := .ok _) h)
  | push | pop | jmp | jne | jeq | jle | jl | jge | jg | ret | mul | loadr => exact .inl (runState_of_finish h)

/-- Everything a step that may start can end in (R105): Running, Halted by a `syscall` at `pc`, or a fault. -/
theorem step_of_startable_cases {s : State} (h : s.Startable) :
    (∃ t, step s = .next t ∧ t.runState = .running) ∨
    (∃ reg value r t, decode s.cfg.opc (s.mem.read s.pc.toNat) = .instr (.syscall reg value) ∧
      EndsRun s.cfg.sys value.toInt ∧ step s = .next t ∧ t.runState = .halted r) ∨
    ∃ f, step s = .fault f := by
  cases hstep : step s with
  | refused r => exact absurd hstep (step_ne_refused h r)
  | fault f => exact .inr (.inr ⟨f, rfl⟩)
  | next t =>
    obtain ⟨-, -, i, hdec, hexec⟩ := step_eq_next hstep
    obtain hrun | ⟨reg, value, rfl, hcode, r, hhalt⟩ := exec_runState hexec
    · exact .inl ⟨t, rfl, hrun⟩
    · exact .inr (.inl ⟨reg, value, r, t, hdec, hcode, rfl, hhalt⟩)

theorem State.setFlags_eq_ok {s t : State} {v : Word} (h : s.setFlags v = .ok t) :
    s.Startable ∧ t = { s with flags := v } := by
  by_cases hs : s.Startable
  · rw [State.setFlags_of_startable s v hs] at h
    exact ⟨hs, (Except.ok.inj h).symm⟩
  · obtain ⟨r, hr⟩ := State.exists_startRefusal_of_not_startable hs
    rw [State.setFlags_of_refusal v hr] at h
    cases h

/-- Settles O7: the rows of R114's table in turn. -/
theorem runStateTransitionsAreComplete : Obligations.RunStateTransitionsAreComplete := by
  refine ⟨fun s t image hload => ?_, fun s hs => ?_, fun s t v hset => ?_, fun s v hs => ?_⟩
  · obtain ⟨entry, ws, -, -, rfl⟩ := State.loadProgram_eq_ok hload
    exact State.loaded_runState s entry ws
  · obtain ⟨t, hstep, hrun⟩ | ⟨reg, value, r, t, hdec, hcode, hstep, hhalt⟩ | ⟨f, hstep⟩ := step_of_startable_cases hs
    · rw [State.execTransaction_of_running hstep hrun]
      exact .inl ⟨rfl, hrun⟩
    · rw [State.execTransaction_of_halt hstep hhalt]
      exact .inr (.inl ⟨reg, value, r, hdec, hcode, rfl, hhalt⟩)
    · rw [State.execTransaction_of_fault hstep]
      exact .inr (.inr ⟨f, rfl, rfl⟩)
  · obtain ⟨hs, rfl⟩ := State.setFlags_eq_ok hset
    exact ⟨hs, rfl⟩
  · obtain ⟨r, hr⟩ := State.exists_startRefusal_of_not_startable hs
    rw [State.execTransaction_of_refused hr]
    exact ⟨rfl, ⟨r, rfl⟩, r, State.setFlags_of_refusal v hr⟩

end Sys2Proof.Machine
end

section
/-! PROOFS (spec/41_ri_arith.md R120, R121). The RI arithmetic instructions: one register write, after which the handler
completes. The lemmas are about any handler that is a register write, and about any RI mnemonic's decoding. -/

namespace Sys2Proof.Machine

/-! ### A handler that is one register write -/

theorem State.keeps_setReg_keepRunning (s : State) (reg : RegIdx) (v : Word) :
    Keeps [reg] [] s (s.setReg reg v).keepRunning := by
  have hregs : KeepsRegs [reg] s (s.setReg reg v).keepRunning := fun q hq =>
    State.reg_setReg_other s reg q v (List.ne_of_not_mem_cons hq)
  exact ⟨hregs, fun _ _ => rfl, ⟨rfl, rfl, rfl⟩, rfl, rfl⟩

/-- A handler that ends in a register write completes from every state: the write has no bounds to fail (R105, R108). -/
theorem finish_setReg_completes (s : State) (reg : RegIdx) (v : Word) :
    ∃ t, finish (.ok (s.setReg reg v)) = .next t ∧ t.reg reg = v ∧ t.pc = s.pc ∧ Keeps [reg] [] s t :=
  ⟨(s.setReg reg v).keepRunning, finish_ok _, State.reg_setReg_same s reg v, rfl, s.keeps_setReg_keepRunning reg v⟩

/-! ### The decoding of an RI mnemonic -/

/-- A mnemonic whose handler is given the RI fields is decoded as one (R73, R104). -/
theorem decodesRI_of_operandsOf {m : Mnemonic} {n : BitVec 8} {mk : RegIdx → Word → Instr}
    (hcode : Opcodes.default.code m = n)
    (hfields : ∀ w, operandsOf m w = mk (decodeRI w).reg (decodeRI w).value) : DecodesRI m n mk :=
  ⟨hcode, fun _ w hinj hop => (decode_of_code hinj hop).trans (congrArg Decoded.instr (hfields w))⟩

/-! ### The two instructions -/

/-- Settles O18: the register write of the sum `State.regPlus`, and the RI fields. -/
theorem addiAddsImmediate : Obligations.AddiAddsImmediate := by
  refine ⟨fun reg value s => ?_, decodesRI_of_operandsOf rfl fun _ => rfl⟩
  rw [exec_addi]
  exact finish_setReg_completes s reg (s.regPlus reg value)

/-- Settles O19: the register write of the immediate itself, and the RI fields. -/
theorem lcLoadsConstant : Obligations.LcLoadsConstant := by
  refine ⟨fun reg value s => ?_, decodesRI_of_operandsOf rfl fun _ => rfl⟩
  rw [exec_lc]
  exact finish_setReg_completes s reg value

end Sys2Proof.Machine
end

section
/-! PROOFS (spec/42_stack.md R130 to R132). What a completed `push` and a completed `pop` leave, one push undone by a
later pop, and from those two the stack discipline: the first push and the last pop enclose a shorter sequence. -/

namespace Sys2Proof.Machine

/-! ### What one push and one pop leave -/

theorem keepsMem_of_write {s t : State} {a : Nat} {v : Word} (h : t.mem = s.mem.write a v) : KeepsMem [a] s t := by
  intro b hb
  rw [h, Memory.read_write_other s.mem a b v (List.ne_of_not_mem_cons hb)]

/-- `push` with room (R130): register 14 is read after its decrement (log 12). -/
theorem exec_push_effect (reg : RegIdx) (value : Word) (s : State) (hroom : (s.sp - 1).toNat < s.cfg.memSize) :
    ∃ t, exec (.push reg value) s = .next t ∧ t.sp = s.sp - 1 ∧
      t.mem.read (s.sp - 1).toNat = (if reg = spReg then s.sp - 1 else s.reg reg) + value ∧
      t.pc = s.pc ∧ Keeps [spReg] [(s.sp - 1).toNat] s t := by
  rw [exec_push, State.pushWord_ok s _ hroom]
  refine ⟨_, finish_ok _, State.sp_setSp s _, ?_, rfl, fun q hq => ?_, keepsMem_of_write rfl, ⟨rfl, rfl, rfl⟩, rfl, rfl⟩
  · simp [State.regPlus, State.reg_setSp]
  · exact State.reg_setReg_other s spReg q _ (List.ne_of_not_mem_cons hq)

/-- `pop` with both accesses in bounds (R131), in terms of the stack pointer `p` its clearing write sees (log 12). The
registers it may write are those of any list that names `reg` and 14. -/
theorem exec_pop_effect {reg : RegIdx} {value p : Word} {s : State} {regs : List RegIdx}
    (hread : s.sp.toNat < s.cfg.memSize) (hp : p = (s.setReg reg (s.mem.read s.sp.toNat + value)).sp)
    (hwrite : p.toNat < s.cfg.memSize) (hreg : reg ∈ regs) (hsp : spReg ∈ regs) :
    ∃ t, exec (.pop reg value) s = .next t ∧ t.sp = p + 1 ∧
      (reg ≠ spReg → t.reg reg = s.mem.read s.sp.toNat + value) ∧ t.mem.read p.toNat = 0 ∧ t.pc = s.pc ∧
      Keeps regs [p.toNat] s t := by
  rw [exec_pop, State.popInto_ok s reg value p hread hp hwrite]
  refine ⟨_, finish_ok _, State.sp_setSp _ _, fun hne => ?_, Memory.read_write_same s.mem p.toNat 0, rfl,
    fun q hq => ?_, keepsMem_of_write (v := 0) rfl, ⟨rfl, rfl, rfl⟩, rfl, rfl⟩
  · simp [State.reg_setSp, hne]
  · have hq14 : q ≠ spReg := (ne_of_mem_of_not_mem hsp hq).symm
    have hqreg : q ≠ reg := (ne_of_mem_of_not_mem hreg hq).symm
    simp [State.reg_setSp, State.reg_setReg, hq14, hqreg]

/-- Settles O20: `exec_push_effect` with room, the bounds fault of the decremented stack pointer without, and the RI
fields. -/
theorem pushStoresBelowStackPointer : Obligations.PushStoresBelowStackPointer := by
  refine ⟨fun reg value s => ⟨exec_push_effect reg value s, fun hout => ?_⟩, decodesRI_of_operandsOf rfl fun _ => rfl⟩
  rw [exec_push, State.pushWord_error s _ hout]
  rfl

/-- Settles O21: the stack pointer the clearing write sees is the old one, or with register 14 the loaded sum. -/
theorem popLoadsAndClearsSlot : Obligations.PopLoadsAndClearsSlot := by
  refine ⟨fun reg value s => ⟨fun hread hreg => ?other, fun hread hreg hwrite => ?register14, fun hout => ?read_fault,
    fun hread hreg hout => ?write_fault⟩, decodesRI_of_operandsOf rfl fun _ => rfl⟩
  case other =>
    have hp : s.sp = (s.setReg reg (s.mem.read s.sp.toNat + value)).sp := by rw [State.sp_setReg, if_neg hreg.symm]
    obtain ⟨t, hexec, hsp, hload, hrest⟩ :=
      exec_pop_effect (regs := [reg, spReg]) hread hp hread (by simp) (by simp)
    exact ⟨t, hexec, hload hreg, hsp, hrest⟩
  case register14 =>
    subst hreg
    have hp := (s.sp_setSp (s.mem.read s.sp.toNat + value)).symm
    obtain ⟨t, hexec, hsp, -, hrest⟩ := exec_pop_effect (regs := [spReg]) hread hp hwrite (by simp) (by simp)
    exact ⟨t, hexec, hsp, hrest⟩
  case read_fault =>
    rw [exec_pop, State.popInto_error_read s reg value hout]
    rfl
  case write_fault =>
    subst hreg
    rw [exec_pop, State.popInto_error_write s spReg value _ hread (s.sp_setSp _).symm hout]
    rfl

/-! ### One push and a later pop -/

/-- `push` of a register other than 14 has taken the slot below the stack pointer of `s`, and touched nothing else. -/
structure OpensSlot (s t : State) : Prop where
  sp : t.reg spReg = s.reg spReg - 1
  keeps : Keeps [spReg] [(s.reg spReg - 1).toNat] s t

theorem OpensSlot.cfg {s t : State} (h : OpensSlot s t) : t.cfg = s.cfg := by
  obtain ⟨-, -, ⟨-, -, hcfg⟩, -, -⟩ := h.keeps
  exact hcfg

/-- Between `u` and `v` a `pop` with operands `q` has given back the slot that a `push` with operands `p` took in `s`,
and touched nothing else. -/
structure ClosesSlot (p q : RegIdx × Word) (s u v : State) : Prop where
  sp : v.reg spReg = s.reg spReg
  value : v.reg q.1 = s.reg p.1 + p.2 + q.2
  cleared : v.mem.read (s.reg spReg - 1).toNat = 0
  keeps : Keeps [q.1, spReg] [(s.reg spReg - 1).toNat] u v

/-- R132 for one pair, from R130 and R131: what `push` stored is what `pop` loads. -/
theorem push_then_pop {p q : RegIdx × Word} {s : State} (hp : p.1 ≠ spReg) (hq : q.1 ≠ spReg)
    (hroom : (s.reg spReg - 1).toNat < s.cfg.memSize) :
    ∃ t, exec (.push p.1 p.2) s = .next t ∧ OpensSlot s t ∧
      ∀ u : State, u.cfg = s.cfg → u.reg spReg = s.reg spReg - 1 →
        u.mem.read (s.reg spReg - 1).toNat = t.mem.read (s.reg spReg - 1).toNat →
        ∃ v, exec (.pop q.1 q.2) u = .next v ∧ ClosesSlot p q s u v := by
  obtain ⟨t, hpush, hsp, hslot, -, hkeeps⟩ := (pushStoresBelowStackPointer.1 p.1 p.2 s).1 hroom
  refine ⟨t, hpush, ⟨hsp, hkeeps⟩, fun u hcfg husp hsame => ?_⟩
  rw [if_neg hp] at hslot
  have huroom : (u.reg spReg).toNat < u.cfg.memSize := by rwa [husp, hcfg]
  obtain ⟨v, hpop, hload, hvsp, hclear, -, hvkeeps⟩ := (popLoadsAndClearsSlot.1 q.1 q.2 u).1 huroom hq
  rw [husp] at hload hvsp hclear hvkeeps
  exact ⟨v, hpop, hvsp.trans (BitVec.sub_add_cancel _ _), by rw [hload, hsame, hslot], hclear, hvkeeps⟩

/-! ### n pushes and n pops -/

theorem execList_cons_of_next {i : Instr} {is : List Instr} {s t : State} (h : exec i s = .next t) :
    execList (i :: is) s = execList is t := by
  simp only [execList, h]

theorem execList_append_of_next {is js : List Instr} {s t : State} (h : execList is s = .next t) :
    execList (is ++ js) s = execList js t := by
  induction is generalizing s with
  | nil => rw [Host.Outcome.next.inj h, List.nil_append]
  | cons i is ih =>
    cases hi : exec i s with
    | next u =>
      rw [execList_cons_of_next hi] at h
      rw [List.cons_append, execList_cons_of_next hi, ih h]
    | fault f => simp [execList, hi] at h
    | refused r => simp [execList, hi] at h

/-- The pushes of `ps`, then the pops of `qs`; an operand pair is a register and an immediate. -/
def pushesThenPops (ps qs : List (RegIdx × Word)) : List Instr :=
  ps.map (fun p => .push p.1 p.2) ++ qs.map (fun q => .pop q.1 q.2)

/-- The first push and the last pop enclose the rest. -/
theorem pushesThenPops_cons_concat (p q : RegIdx × Word) (ps qs : List (RegIdx × Word)) :
    pushesThenPops (p :: ps) (qs ++ [q]) = .push p.1 p.2 :: (pushesThenPops ps qs ++ [.pop q.1 q.2]) := by
  simp [pushesThenPops]

/-- What the pushes of `ps` and the pops of `qs` have done together between `s` and `t` (R132). That memory from the
stack pointer upward is unchanged is what lets an enclosing pair find its own word again. -/
structure RoundTrip (ps qs : List (RegIdx × Word)) (s t : State) : Prop where
  cfg : t.cfg = s.cfg
  sp : t.reg spReg = s.reg spReg
  values : ∀ pq ∈ ps.reverse.zip qs, t.reg pq.2.1 = s.reg pq.1.1 + pq.1.2 + pq.2.2
  cleared : ∀ k, k < ps.length → t.mem.read ((s.reg spReg).toNat - 1 - k) = 0
  above : ∀ a, (s.reg spReg).toNat ≤ a → t.mem.read a = s.mem.read a

theorem RoundTrip.nil (s : State) : RoundTrip [] [] s s :=
  ⟨rfl, rfl, by simp, by simp, fun _ _ => rfl⟩

/-- A round trip enclosed by a push before it and a pop after it is a round trip. -/
theorem RoundTrip.enclose {p q : RegIdx × Word} {ps qs : List (RegIdx × Word)} {s s₁ s₂ t : State}
    (hlen : ps.length = qs.length) (hps : ∀ p' ∈ ps, p'.1 ≠ spReg) (hqs : ∀ q' ∈ qs, q'.1 ≠ spReg ∧ q'.1 ≠ q.1)
    (hroom : ps.length < (s.reg spReg).toNat) (pushed : OpensSlot s s₁) (inner : RoundTrip ps qs s₁ s₂)
    (popped : ClosesSlot p q s s₂ t) : RoundTrip (p :: ps) (qs ++ [q]) s t := by
  have hcfg₁ := pushed.cfg
  obtain ⟨hsp₁, hregs₁, hmem₁, -⟩ := pushed
  obtain ⟨hsp, hvalue, hclear, hregs₂, hmem₂, ⟨-, -, hcfg₂⟩, -, -⟩ := popped
  have hslot : (s.reg spReg - 1).toNat = (s.reg spReg).toNat - 1 := BitVec.toNat_sub_of_le (Nat.one_le_of_lt hroom)
  have hcleared := inner.cleared
  have habove := inner.above
  rw [hsp₁] at hcleared habove
  rw [hslot] at hclear hmem₁ hmem₂ hcleared habove
  refine ⟨hcfg₂.trans (inner.cfg.trans hcfg₁), hsp, fun pq hpq => ?values, fun k hk => ?cleared, fun a ha => ?above⟩
  case values =>
    rw [List.reverse_cons, List.zip_append (by rw [List.length_reverse, hlen]), List.mem_append] at hpq
    obtain hpq | hpq := hpq
    · obtain ⟨hp', hq'⟩ := List.of_mem_zip hpq
      have hp14 : pq.1.1 ≠ spReg := hps _ (List.mem_reverse.mp hp')
      obtain ⟨hq14, hqne⟩ := hqs _ hq'
      rw [hregs₂ pq.2.1 (by simp [hq14, hqne]), inner.values pq hpq, hregs₁ pq.1.1 (by simp [hp14])]
    · obtain rfl : pq = (p, q) := by simpa using hpq
      exact hvalue
  case cleared =>
    cases k with
    | zero => exact hclear
    | succ k =>
      have hk' : k < ps.length := by simpa using hk
      have hdeeper : (s.reg spReg).toNat - 1 - (k + 1) = (s.reg spReg).toNat - 1 - 1 - k := by omega
      rw [hdeeper, hmem₂ _ (by simp; omega), hcleared k hk']
  case above =>
    have hne : a ∉ [(s.reg spReg).toNat - 1] := by simp; omega
    rw [hmem₂ a hne, habove a (by omega), hmem₁ a hne]

/-- R132 for n pushes and n pops: the induction goes from the outer pair inward. -/
theorem exec_pushesThenPops {ps qs : List (RegIdx × Word)} {s : State} (hlen : ps.length = qs.length)
    (hps : ∀ p ∈ ps, p.1 ≠ spReg) (hqs : ∀ q ∈ qs, q.1 ≠ spReg) (hdistinct : (qs.map Prod.fst).Nodup)
    (hlow : ps.length ≤ (s.reg spReg).toNat) (hhigh : (s.reg spReg).toNat ≤ s.cfg.memSize) :
    ∃ t, execList (pushesThenPops ps qs) s = .next t ∧ RoundTrip ps qs s t := by
  induction ps generalizing qs s with
  | nil =>
    obtain rfl : qs = [] := List.length_eq_zero_iff.mp hlen.symm
    exact ⟨s, rfl, RoundTrip.nil s⟩
  | cons p ps ih =>
    obtain rfl | ⟨qs, q, rfl⟩ := List.eq_nil_or_concat' qs
    · simp at hlen
    rw [List.length_cons, List.length_append, List.length_singleton, Nat.add_right_cancel_iff] at hlen
    rw [List.length_cons, Nat.add_one_le_iff] at hlow
    simp only [List.forall_mem_cons, List.forall_mem_append] at hps hqs
    obtain ⟨hp, hps⟩ := hps
    obtain ⟨hqs, hq, -⟩ := hqs
    have hlast : (qs.map Prod.fst).Nodup ∧ ∀ q' ∈ qs, q'.1 ≠ q.1 := by
      rw [List.map_append, List.nodup_append] at hdistinct
      obtain ⟨hnodup, -, hne⟩ := hdistinct
      exact ⟨hnodup, fun q' hq' => hne _ (List.mem_map_of_mem hq') _ (by simp)⟩
    obtain ⟨hdistinct, hne⟩ := hlast
    have hslot : (s.reg spReg - 1).toNat = (s.reg spReg).toNat - 1 := BitVec.toNat_sub_of_le (Nat.one_le_of_lt hlow)
    obtain ⟨s₁, hpush, pushed, hpop⟩ := push_then_pop hp hq (show _ < s.cfg.memSize by omega)
    obtain ⟨s₂, hrun, inner⟩ := ih hlen hps hqs hdistinct (s := s₁) (by rw [pushed.sp]; omega)
      (by rw [pushed.sp, pushed.cfg]; omega)
    obtain ⟨t, hpopped, popped⟩ := hpop s₂ (inner.cfg.trans pushed.cfg) (inner.sp.trans pushed.sp)
      (inner.above _ (by rw [pushed.sp]))
    refine ⟨t, ?_, inner.enclose hlen hps (fun q' h => ⟨hqs q' h, hne q' h⟩) hlow pushed popped⟩
    rw [pushesThenPops_cons_concat, execList_cons_of_next hpush, execList_append_of_next hrun,
      execList_cons_of_next hpopped]
    rfl

/-- Settles O22: `push_then_pop` for one pair, and the nested pairs of `exec_pushesThenPops`. -/
theorem stackDiscipline : Obligations.StackDiscipline := by
  refine ⟨fun a b va vb s ha hb _ hlow hhigh => ?one, fun ps qs s hlen hps hqs hdistinct _ hlow hhigh => ?sequence⟩
  case one =>
    have hslot : (s.reg spReg - 1).toNat = (s.reg spReg).toNat - 1 := BitVec.toNat_sub_of_le hlow
    obtain ⟨t, hpush, -, hpop⟩ := push_then_pop (p := (a, va)) (q := (b, vb)) ha hb (show _ < s.cfg.memSize by omega)
    refine ⟨t, hpush, fun u hcfg hsp hsame => ?_⟩
    obtain ⟨v, hpopped, popped⟩ := hpop u hcfg hsp hsame
    exact ⟨v, hpopped, popped.sp, popped.value, popped.cleared⟩
  case sequence =>
    obtain ⟨t, hrun, htrip⟩ := exec_pushesThenPops hlen hps hqs hdistinct hlow hhigh
    exact ⟨t, hrun, htrip.sp, htrip.values, htrip.cleared⟩

end Sys2Proof.Machine
end

section
/-! PROOFS (spec/43_syscall.md R140 to R147). One equation per service of `syscall`, what every service leaves unchanged
and which of them halt, and the console transaction of each instruction. -/

namespace Sys2Proof.Machine

/-! ### One equation per console service -/

/-- R140 tries the codes in order; as they are distinct, none before a console service's own catches it. -/
theorem serviceOf_consoleCodes {c : SysCodes} (hc : c.Wf) :
    serviceOf c c.readInt = .readInt ∧ serviceOf c c.printInt = .printInt ∧
      serviceOf c c.readChar = .readChar ∧ serviceOf c c.writeChar = .writeChar := by
  obtain ⟨hdistinct, -⟩ := hc
  simp only [SysCodes.toList, List.nodup_cons, List.mem_cons, List.not_mem_nil, not_or, or_false] at hdistinct
  obtain ⟨⟨_, _, _, _⟩, ⟨_, _, _⟩, ⟨_, _⟩, _, -⟩ := hdistinct
  refine ⟨?_, ?_, ?_, ?_⟩ <;> simp [serviceOf, *, Ne.symm]

/-- The two read services do the same (R142, R144). -/
theorem execSyscall_of_read (r : RegIdx) {v : Word} {s : State} (hc : s.cfg.sys.Wf)
    (h : v.toInt = s.cfg.sys.readInt ∨ v.toInt = s.cfg.sys.readChar) :
    execSyscall r v s = .next (s.readConsoleInto r).keepRunning := by
  obtain ⟨hreadInt, -, hreadChar, -⟩ := serviceOf_consoleCodes hc
  obtain h | h := h
  · rw [execSyscall, h, hreadInt]; rfl
  · rw [execSyscall, h, hreadChar]; rfl

theorem execSyscall_of_printInt (r : RegIdx) {v : Word} {s : State} (hc : s.cfg.sys.Wf)
    (h : v.toInt = s.cfg.sys.printInt) :
    execSyscall r v s = .next (s.consoleOut (.outInt (s.reg r))).keepRunning := by
  obtain ⟨-, hprintInt, -, -⟩ := serviceOf_consoleCodes hc
  rw [execSyscall, h, hprintInt]; rfl

theorem execSyscall_of_writeChar (r : RegIdx) {v : Word} {s : State} (hc : s.cfg.sys.Wf)
    (h : v.toInt = s.cfg.sys.writeChar) :
    execSyscall r v s = .next (s.consoleOut (.outChar (s.reg r))).keepRunning := by
  obtain ⟨-, -, -, hwriteChar⟩ := serviceOf_consoleCodes hc
  rw [execSyscall, h, hwriteChar]; rfl

/-- Settles O24: `execSyscall_of_exit`, whose next state is the halt alone. -/
theorem exitServiceHalts : Obligations.ExitServiceHalts :=
  fun reg value s hexit => (exec_syscall reg value s).trans (execSyscall_of_exit reg hexit)

/-- Settles O26: the equations of the two write services. -/
theorem writeServicesEmitOneEvent : Obligations.WriteServicesEmitOneEvent := fun reg value s hc =>
  ⟨fun hprint => (exec_syscall reg value s).trans (execSyscall_of_printInt reg hc hprint),
    fun hwrite => (exec_syscall reg value s).trans (execSyscall_of_writeChar reg hc hwrite)⟩

/-- Settles O27: `execSyscall_of_unknown`, whose next state has the diagnostic handed out and is then halted. -/
theorem unknownServiceHaltsWithDiagnostic : Obligations.UnknownServiceHaltsWithDiagnostic :=
  fun reg value s hunknown => (exec_syscall reg value s).trans (execSyscall_of_unknown reg hunknown)

/-! ### The read services -/

theorem State.keepsRegs_readConsoleInto (s : State) (r : RegIdx) : KeepsRegs [r] s (s.readConsoleInto r) := by
  intro q hq
  rw [State.readConsoleInto_reg, if_neg (List.ne_of_not_mem_cons hq)]

/-- With an answer listed, the read takes it. -/
theorem State.readConsoleInto_of_answer {s : State} (r : RegIdx) {v : Word} {rest : List Word}
    (h : s.console.answers = v :: rest) :
    s.readConsoleInto r = State.setReg { s with console := { s.console with answers := rest } } r v := by
  rw [State.readConsoleInto, State.consoleIn_of_answer s v rest h]

/-- With none listed, it takes the free value of this draw and counts the draw (log 8). -/
theorem State.readConsoleInto_of_no_answer {s : State} (r : RegIdx) (h : s.console.answers = []) :
    s.readConsoleInto r = State.setReg { s with console := { s.console with draws := s.console.draws + 1 } } r
      (Config.consoleAnswer s.console.draws) := by
  rw [State.readConsoleInto, State.consoleIn_of_no_answer s h]

/-- Settles O25: the register and the console of the one read, with an answer listed and without. -/
theorem readServicesTakeOneAnswer : Obligations.ReadServicesTakeOneAnswer := by
  intro reg value s hc hread
  have hexec : exec (.syscall reg value) s = .next (s.readConsoleInto reg).keepRunning :=
    (exec_syscall reg value s).trans (execSyscall_of_read reg hc hread)
  obtain ⟨hcontrol, -⟩ := BoundedEffect.of_exec hexec
  refine ⟨_, hexec, s.readConsoleInto_pc reg, s.keepsRegs_readConsoleInto reg, fun a _ => ?memory, hcontrol, rfl,
    s.consoleIn_events, fun v rest hlisted => ?listed, fun hnone => ?free⟩
  case memory => rw [State.keepRunning_mem, State.readConsoleInto_mem]
  case listed =>
    rw [State.readConsoleInto_of_answer reg hlisted]
    exact ⟨State.reg_setReg_same _ reg v, rfl, rfl⟩
  case free =>
    rw [State.readConsoleInto_of_no_answer reg hnone]
    exact ⟨State.reg_setReg_same _ reg _, hnone, rfl⟩

/-! ### Every service -/

/-- No arm of `syscall` faults (R140). -/
theorem execSyscall_completes (r : RegIdx) (v : Word) (s : State) : ∃ t, execSyscall r v s = .next t := by
  rcases execSyscall_cases r v s with ⟨-, he⟩ | ⟨-, he⟩ | ⟨-, he⟩ | ⟨-, he⟩ | ⟨-, he⟩ <;> exact ⟨_, he⟩

/-- No service moves `pc`. -/
theorem execSyscall_pc {r : RegIdx} {v : Word} {s t : State} (h : execSyscall r v s = .next t) : t.pc = s.pc := by
  rcases execSyscall_cases r v s with ⟨-, he⟩ | ⟨-, he⟩ | ⟨-, he⟩ | ⟨-, he⟩ | ⟨-, he⟩ <;>
    obtain rfl := Host.Outcome.next.inj (he.symm.trans h) <;> simp

/-- Only a read service writes a register, and it writes the one it names. -/
theorem execSyscall_regs {r : RegIdx} {v : Word} {s t : State} (h : execSyscall r v s = .next t) :
    KeepsRegs [] s t ∨ (v.toInt = s.cfg.sys.readInt ∨ v.toInt = s.cfg.sys.readChar) ∧ KeepsRegs [r] s t := by
  rcases execSyscall_cases r v s with ⟨-, he⟩ | ⟨hread, he⟩ | ⟨-, he⟩ | ⟨-, he⟩ | ⟨-, he⟩ <;>
    obtain rfl := Host.Outcome.next.inj (he.symm.trans h)
  case inr.inl => exact .inr ⟨hread, s.keepsRegs_readConsoleInto r⟩
  all_goals exact .inl fun _ _ => rfl

/-- A `syscall` ends the run exactly for the codes of exit and of no service (R141, R146). -/
theorem execSyscall_halts_iff {r : RegIdx} {v : Word} {s t : State} (h : execSyscall r v s = .next t) :
    (∃ reason, t.runState = .halted reason) ↔ EndsRun s.cfg.sys v.toInt := by
  constructor
  · rintro ⟨reason, hhalt⟩
    obtain hrun | ⟨hends, -⟩ := execSyscall_runState h
    · cases hrun.symm.trans hhalt
    · exact hends
  · rintro (hexit | hunknown)
    · obtain rfl := Host.Outcome.next.inj ((execSyscall_of_exit r hexit).symm.trans h)
      exact ⟨_, State.halt_runState _ _⟩
    · obtain rfl := Host.Outcome.next.inj ((execSyscall_of_unknown r hunknown).symm.trans h)
      exact ⟨_, State.halt_runState _ _⟩

theorem execSyscall_running_iff {r : RegIdx} {v : Word} {s t : State} (h : execSyscall r v s = .next t) :
    t.runState = .running ↔ ¬ EndsRun s.cfg.sys v.toInt := by
  rw [← execSyscall_halts_iff h]
  constructor
  · rintro hrun ⟨reason, hhalt⟩
    cases hrun.symm.trans hhalt
  · intro hnot
    obtain hrun | ⟨-, hhalt⟩ := execSyscall_runState h
    · exact hrun
    · exact absurd hhalt hnot

/-- Exit's code being distinct from the other four, the codes that do not end the run are those four. -/
theorem not_endsRun_iff {c : SysCodes} (hc : c.Wf) {n : Int} :
    ¬ EndsRun c n ↔ n ∈ [c.readInt, c.printInt, c.readChar, c.writeChar] := by
  obtain ⟨hdistinct, -⟩ := hc
  obtain ⟨hexit, -⟩ := List.nodup_cons.mp hdistinct
  constructor
  · intro hnot
    obtain ⟨hne, hlisted⟩ := not_or.mp hnot
    exact List.mem_of_ne_of_mem hne (not_not.mp hlisted)
  · rintro hmem (rfl | hnotListed)
    · exact hexit hmem
    · exact hnotListed (List.mem_cons_of_mem _ hmem)

/-- Settles O23: every service completes with a bounded effect, `execSyscall_regs` names the registers, and the codes
are split by `EndsRun`. -/
theorem syscallAlwaysCompletes : Obligations.SyscallAlwaysCompletes := by
  refine ⟨fun reg value s hc => ?_, decodesRI_of_operandsOf rfl fun _ => rfl⟩
  obtain ⟨t, hexec⟩ := execSyscall_completes reg value s
  have hmem : KeepsMem [] s t := fun a _ => congrArg (Memory.read · a) (execSyscall_mem hexec)
  have hcontrol := (BoundedEffect.of_execSyscall hexec).control
  refine ⟨t, hexec, execSyscall_pc hexec, hmem, hcontrol, ?only_reg, ?only_read,
    (execSyscall_running_iff hexec).trans (not_endsRun_iff hc), execSyscall_halts_iff hexec⟩
  case only_reg =>
    obtain hnone | ⟨-, honly⟩ := execSyscall_regs hexec
    · exact fun q _ => hnone q List.not_mem_nil
    · exact honly
  case only_read =>
    intro hreadInt hreadChar
    obtain hnone | ⟨hread, -⟩ := execSyscall_regs hexec
    · exact hnone
    · exact absurd hread (not_or.mpr ⟨hreadInt, hreadChar⟩)

/-! ### The console transaction of an instruction -/

/-- From console `c` to console `d` the machine has made at most one transaction with the host (R147; log 8, 9): none,
one event handed out after all earlier ones, the next listed answer taken, or one free value drawn. -/
inductive AtMostOneTransaction (c d : Console) : Prop where
  | silent (h : d = c)
  | event (e : ConsoleEvent) (h : d = { c with events := c.events ++ [e] })
  | answer (v : Word) (rest : List Word) (hlisted : c.answers = v :: rest) (h : d = { c with answers := rest })
  | draw (hnone : c.answers = []) (h : d = { c with draws := c.draws + 1 })

theorem State.readConsoleInto_transaction (s : State) (r : RegIdx) :
    AtMostOneTransaction s.console (s.readConsoleInto r).console := by
  cases hanswers : s.console.answers with
  | nil => exact .draw hanswers (congrArg State.console (State.readConsoleInto_of_no_answer r hanswers))
  | cons v rest => exact .answer v rest hanswers (congrArg State.console (State.readConsoleInto_of_answer r hanswers))

theorem execSyscall_transaction {r : RegIdx} {v : Word} {s t : State} (h : execSyscall r v s = .next t) :
    AtMostOneTransaction s.console t.console := by
  rcases execSyscall_cases r v s with ⟨-, he⟩ | ⟨-, he⟩ | ⟨-, he⟩ | ⟨-, he⟩ | ⟨-, he⟩ <;>
    obtain rfl := Host.Outcome.next.inj (he.symm.trans h)
  case inl => exact .silent rfl
  case inr.inl => exact s.readConsoleInto_transaction r
  all_goals exact .event _ rfl

/-- The end of a handler (R105) writes `run_state` only. -/
theorem console_of_finish {s t : State} {r : Except Fault State} (hr : ∀ u, r = .ok u → u.console = s.console)
    (h : finish r = .next t) : t.console = s.console := by
  obtain ⟨u, hu, rfl⟩ := finish_eq_next_iff.mp h
  exact hr u hu

theorem State.jumpAndPush_console {s t : State} {value : Word} (h : s.jumpAndPush value = .ok t) :
    t.console = s.console := by
  obtain ⟨-, rfl⟩ := State.jumpAndPush_eq_ok h
  rfl

/-- The micro-steps of every other instruction write registers, `pc` and memory only. -/
theorem exec_console_of_not_syscall {i : Instr} {s t : State} (hi : ¬ ∃ reg value, i = .syscall reg value)
    (h : exec i s = .next t) : t.console = s.console := by
  cases i with
  | syscall reg value => exact absurd ⟨reg, value, rfl⟩ hi
  | addi | lc | mov =>
    obtain rfl := Host.Outcome.next.inj h
    rfl
  | push =>
    refine console_of_finish (fun u hu => ?_) h
    obtain ⟨-, rfl⟩ := State.pushWord_eq_ok hu
    rfl
  | pop =>
    refine console_of_finish (fun u hu => ?_) h
    obtain ⟨p, -, -, -, rfl⟩ := State.popInto_eq_ok hu
    rfl
  | jmp => exact console_of_finish (fun u hu => State.jumpAndPush_console hu) h
  | jne | jeq | jle | jl | jge | jg =>
    refine console_of_finish (fun u hu => ?_) h
    obtain ⟨-, rfl⟩ | ⟨-, hjump⟩ := State.jumpIf_eq_ok hu
    · rfl
    · exact State.jumpAndPush_console hjump
  | ret =>
    refine console_of_finish (fun u hu => ?_) h
    obtain ⟨-, rfl⟩ := State.returnVia_eq_ok hu
    rfl
  | mul =>
    refine console_of_finish (fun u hu => ?_) h
    obtain ⟨q, lo, hi, rfl⟩ := State.multiply_eq_ok hu
    rfl
  | loadr =>
    refine console_of_finish (fun u hu => ?_) h
    obtain ⟨-, rfl⟩ := State.loadInto_eq_ok hu
    rfl

/-- At most one transaction, made by a `syscall`. -/
theorem exec_console {i : Instr} {s t : State} (h : exec i s = .next t) :
    (t.console = s.console ∨ ∃ reg value, i = .syscall reg value) ∧ AtMostOneTransaction s.console t.console := by
  by_cases hi : ∃ reg value, i = .syscall reg value
  · obtain ⟨reg, value, rfl⟩ := hi
    exact ⟨.inr ⟨reg, value, rfl⟩, execSyscall_transaction h⟩
  · have hsame := exec_console_of_not_syscall hi h
    exact ⟨.inl hsame, .silent hsame⟩

/-- Settles O29: the four cases of `AtMostOneTransaction`. -/
theorem consoleTouchedOnlyBySyscall : Obligations.ConsoleTouchedOnlyBySyscall := by
  intro i s t h
  obtain ⟨honly, htransaction⟩ := exec_console h
  refine ⟨honly, ?_⟩
  cases htransaction with
  | silent hd => exact .inr ⟨congrArg Console.events hd, .inl hd⟩
  | event e hd => exact .inl ⟨e, hd⟩
  | answer v rest hlisted hd => exact .inr ⟨by rw [hd], .inr (.inl ⟨v, rest, hlisted, hd⟩)⟩
  | draw hnone hd => exact .inr ⟨by rw [hd], .inr (.inr ⟨hnone, hd⟩)⟩

end Sys2Proof.Machine
end

section
/-! PROOFS (spec/44_control.md R150 to R160). Control transfer: the effect of a jump that is taken and of one that is not,
`ret`, a taken jump undone by a later `ret`, and the runs in which `flags` stays 0. -/

namespace Sys2Proof.Machine

/-! ### The invariant with `flags` at 0 -/

/-- Settles O54: the bounded effect of a step gives the invariant and writes no `flags`. -/
theorem stepKeepsInvariantWithFlagsZero : Obligations.StepKeepsInvariantWithFlagsZero := by
  rintro s t ⟨hinv, hzero⟩ hstep
  have heffect := BoundedEffect.of_step hstep
  obtain ⟨hflags, -, -⟩ := heffect.control
  exact ⟨heffect.inv hinv, hflags.trans hzero⟩

/-! ### A jump, taken or not -/

/-- A taken jump with room for its push completes with the transfer of R150, whichever of the seven it is. -/
theorem exec_jumpTaken_effect {i : Instr} {s : State} (htaken : JumpTaken i s.flags)
    (hroom : (s.reg spReg - 1).toNat < s.cfg.memSize) : ∃ t, exec i s = .next t ∧ JumpsAndPushes i.value s t := by
  rw [exec_of_jumpTaken htaken, State.jumpAndPush_ok s _ hroom]
  refine ⟨_, finish_ok _, State.sp_setSp s _, Memory.read_write_same s.mem _ _, rfl, fun q hq => ?_,
    keepsMem_of_write rfl, ⟨rfl, rfl, rfl⟩, rfl, rfl⟩
  exact State.reg_setReg_other s spReg q _ (List.ne_of_not_mem_cons hq)

theorem exec_jumpTaken_fault {i : Instr} {s : State} (htaken : JumpTaken i s.flags)
    (hout : s.cfg.memSize ≤ (s.reg spReg - 1).toNat) :
    exec i s = .fault (.boundsMem (s.reg spReg - 1) (s.pc - 1)) := by
  rw [exec_of_jumpTaken htaken, State.jumpAndPush_error s _ hout]
  rfl

theorem State.keeps_keepRunning (s : State) : Keeps [] [] s s.keepRunning :=
  ⟨fun _ _ => rfl, fun _ _ => rfl, ⟨rfl, rfl, rfl⟩, rfl, rfl⟩

/-- A constructor of conditional jumps follows the relation that `JumpTaken` states for it. -/
theorem jumpsExactlyWhen_of_jumpTaken {m : Mnemonic} {rel : Int → Prop} {mk : RegIdx → Word → Instr}
    (hm : m ∈ conditionalJumps) (hmnemonic : ∀ reg value, (mk reg value).mnemonic = m)
    (hvalue : ∀ reg value, (mk reg value).value = value)
    (hrel : ∀ reg value f, JumpTaken (mk reg value) f ↔ rel f.toInt) : JumpsExactlyWhen rel mk := by
  refine fun reg value s => ⟨fun hnot => ?not_taken, fun htaken hroom => ?taken, fun htaken hout => ?no_room⟩
  case not_taken =>
    have hnot' : ¬ JumpTaken (mk reg value) s.flags := mt (hrel reg value s.flags).mp hnot
    rw [exec_of_not_jumpTaken ((hmnemonic reg value).symm ▸ hm) hnot']
    exact ⟨s.keepRunning, finish_ok s, rfl, s.keeps_keepRunning⟩
  case taken =>
    obtain ⟨t, hexec, heffect⟩ := exec_jumpTaken_effect ((hrel reg value s.flags).mpr htaken) hroom
    rw [hvalue] at heffect
    exact ⟨t, hexec, heffect⟩
  case no_room => exact exec_jumpTaken_fault ((hrel reg value s.flags).mpr htaken) hout

/-- A mnemonic whose handler is given the RM fields is decoded as one (R74, R104). -/
theorem decodesRM_of_operandsOf {m : Mnemonic} {n : BitVec 8} {mk : RegIdx → Word → Instr}
    (hcode : Opcodes.default.code m = n)
    (hfields : ∀ w, operandsOf m w = mk (decodeRM w).reg (decodeRM w).value) : DecodesRM m n mk :=
  ⟨hcode, fun _ w hinj hop => (decode_of_code hinj hop).trans (congrArg Decoded.instr (hfields w))⟩

/-- Settles O30: `jmp` is the jump that is always taken. It leaves Running with `pc` at the target, so a target out of
bounds is caught by the next fetch. -/
theorem jmpPushesReturnAddress : Obligations.JmpPushesReturnAddress := by
  refine ⟨fun reg value s => ⟨fun hroom => ?_, fun hout => exec_jumpTaken_fault trivial hout⟩,
    decodesRM_of_operandsOf rfl fun _ => rfl⟩
  obtain ⟨t, hexec, heffect⟩ := exec_jumpTaken_effect (i := .jmp reg value) trivial hroom
  refine ⟨t, hexec, heffect, fun htarget => ?_⟩
  obtain ⟨-, -, rfl, -, -, ⟨-, -, hcfg⟩, -, hrunning⟩ := heffect
  exact step_of_fetch_error t (.inr hrunning) (hcfg ▸ htarget)

/-- Settles O31: the six relations are those of `JumpTaken`. -/
theorem conditionalJumpsFollowFlags : Obligations.ConditionalJumpsFollowFlags := by
  refine ⟨⟨?jne, decodesRM_of_operandsOf rfl fun _ => rfl⟩, ⟨?jeq, decodesRM_of_operandsOf rfl fun _ => rfl⟩,
    ⟨?jle, decodesRM_of_operandsOf rfl fun _ => rfl⟩, ⟨?jl, decodesRM_of_operandsOf rfl fun _ => rfl⟩,
    ⟨?jge, decodesRM_of_operandsOf rfl fun _ => rfl⟩, ⟨?jg, decodesRM_of_operandsOf rfl fun _ => rfl⟩⟩
  all_goals
    exact jumpsExactlyWhen_of_jumpTaken (by decide) (fun _ _ => rfl) (fun _ _ => rfl) fun _ _ _ => Iff.rfl

/-! ### `ret` -/

/-- `ret` with the stack pointer in bounds (R158). -/
theorem exec_ret_effect (reg : RegIdx) (value : Word) (s : State) (hin : (s.reg spReg).toNat < s.cfg.memSize) :
    ∃ t, exec (.ret reg value) s = .next t ∧ t.pc = s.mem.read (s.reg spReg).toNat ∧
      t.reg spReg = s.reg spReg + value + 1 ∧ Keeps [spReg] [] s t := by
  rw [exec_ret, State.returnVia_ok s value hin]
  refine ⟨_, finish_ok _, rfl, State.sp_setSp _ _, fun q hq => ?_, fun _ _ => rfl, ⟨rfl, rfl, rfl⟩, rfl, rfl⟩
  exact State.reg_setReg_other _ spReg q _ (List.ne_of_not_mem_cons hq)

/-- Settles O32: `exec_ret_effect` in bounds, the fault of the read outside, and the RM fields. -/
theorem retReturnsAndReleases : Obligations.RetReturnsAndReleases := by
  refine ⟨fun reg value s => ⟨exec_ret_effect reg value s, fun hout => ?_⟩, decodesRM_of_operandsOf rfl fun _ => rfl⟩
  rw [exec_ret, State.returnVia_error s value hout]
  rfl

/-- Settles O33: `ret 0` finds the return address in the slot the jump took, and releases that one slot. -/
theorem retUndoesJump : Obligations.RetUndoesJump := by
  intro i reg s htaken hroom
  obtain ⟨t, hjump, hsp, hslot, -, -⟩ := exec_jumpTaken_effect htaken hroom
  refine ⟨t, hjump, fun u hcfg husp hsame => ?_⟩
  rw [hsp] at husp hsame
  have hin : (u.reg spReg).toNat < u.cfg.memSize := by rwa [husp, hcfg]
  obtain ⟨v, hret, hpc, hvsp, -⟩ := exec_ret_effect reg 0 u hin
  refine ⟨v, hret, ?_, ?_⟩
  · calc v.pc = u.mem.read (s.reg spReg - 1).toNat := by rw [hpc, husp]
      _ = s.pc := hsame.trans hslot
  · calc v.reg spReg = s.reg spReg - 1 + 0 + 1 := by rw [hvsp, husp]
      _ = s.reg spReg := by rw [add_zero, sub_add_cancel]

/-! ### Runs in which `flags` stays 0 -/

/-- What holds where a run begins and is kept by every step holds in every state of the run. -/
theorem RunsTo.invariant {P : State → Prop} {s t : State} (hrun : RunsTo s t) (hs : P s)
    (hkeeps : ∀ u v, P u → step u = .next v → P v) : P t := by
  induction hrun with
  | here => exact hs
  | after _ hstep ih => exact hkeeps _ _ ih hstep

theorem State.Inv.frame_eq {s : State} (h : s.Inv) : s.frame = s.cfg.stackTop := by
  obtain ⟨-, -, -, hframe⟩ := h
  exact hframe

/-- No step changes the configuration (R34). -/
theorem RunsTo.cfg_eq {s t : State} (hrun : RunsTo s t) : t.cfg = s.cfg :=
  hrun.invariant (P := fun u => u.cfg = s.cfg) rfl fun _ _ hu hstep => by
    obtain ⟨-, -, hcfg⟩ := (BoundedEffect.of_step hstep).control
    exact hcfg.trans hu

/-- A jump that is taken does what `jmp` does (R150). -/
theorem exec_eq_jmp_of_jumpTaken {i : Instr} {s : State} (reg : RegIdx) (h : JumpTaken i s.flags) :
    exec i s = exec (.jmp reg i.value) s :=
  (exec_of_jumpTaken h).trans (exec_jmp reg i.value s).symm

/-- The column of R160 for `flags` at 0: which of the six conditional jumps are taken. -/
theorem jumpTaken_zero (reg : RegIdx) (value : Word) :
    (JumpTaken (.jeq reg value) 0 ∧ JumpTaken (.jle reg value) 0 ∧ JumpTaken (.jge reg value) 0) ∧
      ¬ JumpTaken (.jne reg value) 0 ∧ ¬ JumpTaken (.jl reg value) 0 ∧ ¬ JumpTaken (.jg reg value) 0 := by
  simp [JumpTaken]

/-- Settles O52: a load leaves the invariant with `flags` at 0 and every step keeps both, so in every state of the run the
column of R160 for 0 decides the jumps. -/
theorem runsWithoutSetFlagsDecideEveryJump : Obligations.RunsWithoutSetFlagsDecideEveryJump := by
  intro s t u image hc hload hrun
  obtain ⟨entry, ws, -, hlen, rfl⟩ := State.loadProgram_eq_ok hload
  have hcfg : u.cfg = s.cfg := hrun.cfg_eq.trans (State.loaded_cfg s entry ws)
  obtain ⟨hinv, hzero⟩ : u.Inv ∧ u.flags = 0 :=
    hrun.invariant ⟨State.inv_loaded hc entry hlen, State.loaded_flags s entry ws⟩ stepKeepsInvariantWithFlagsZero
  refine ⟨hzero, hcfg ▸ hinv.frame_eq, hcfg, hinv, fun reg value v hv => ?_⟩
  have hflags : v.flags = 0 := hv ▸ hzero
  obtain ⟨⟨hjeq, hjle, hjge⟩, hjne, hjl, hjg⟩ := hflags ▸ jumpTaken_zero reg value
  exact ⟨exec_eq_jmp_of_jumpTaken reg hjeq, exec_eq_jmp_of_jumpTaken reg hjle, exec_eq_jmp_of_jumpTaken reg hjge,
    exec_of_not_jumpTaken (by simp [conditionalJumps, Instr.mnemonic]) hjne,
    exec_of_not_jumpTaken (by simp [conditionalJumps, Instr.mnemonic]) hjl,
    exec_of_not_jumpTaken (by simp [conditionalJumps, Instr.mnemonic]) hjg⟩

end Sys2Proof.Machine
end

section
/-! PROOFS (spec/45_rr.md R170 to R173). The RR instructions. The product is an integer reduced modulo 2^64, and its two
Words are the quotient and the remainder by 2^32; the signed reading of an operand takes 2^32 off the unsigned one where
bit 31 is set, which the high Word alone shows. -/

namespace Sys2Proof.Machine

/-! ### The decoding of an RR mnemonic -/

/-- A mnemonic whose handler is given the RR fields is decoded as one (R75, R104). -/
theorem decodesRR_of_operandsOf {m : Mnemonic} {n : BitVec 8} {mk : RegIdx → RegIdx → Word → Instr}
    (hcode : Opcodes.default.code m = n)
    (hfields : ∀ w, operandsOf m w = mk (decodeRR w).inReg (decodeRR w).outReg (decodeRR w).value) :
    DecodesRR m n mk :=
  ⟨hcode, fun _ w hinj hop => (decode_of_code hinj hop).trans (congrArg Decoded.instr (hfields w))⟩

/-! ### The two Words of a 64-bit number -/

theorem toNat_lowWord (p : BitVec 64) : (lowWord p).toNat = p.toNat % 2 ^ 32 := by
  simp [lowWord]

theorem toNat_highWord (p : BitVec 64) : (highWord p).toNat = p.toNat / 2 ^ 32 := by
  have hlt : p.toNat / 2 ^ 32 < 2 ^ 32 := Nat.div_lt_of_lt_mul p.isLt
  rw [highWord, BitVec.extractLsb'_toNat, Nat.shiftRight_eq_div_pow, Nat.mod_eq_of_lt hlt]

theorem toNat_lowWord_add_highWord (p : BitVec 64) :
    (lowWord p).toNat + 2 ^ 32 * (highWord p).toNat = p.toNat := by
  rw [toNat_lowWord, toNat_highWord, Nat.mod_add_div]

theorem toNat_ofInt_eq_emod {w : Nat} (z : Int) : ((BitVec.ofInt w z).toNat : Int) = z % 2 ^ w := by
  rw [BitVec.toNat_ofInt, Int.toNat_of_nonneg (Int.emod_nonneg z (by positivity))]
  push_cast
  rfl

theorem lowWord_ofInt (z : Int) : lowWord (BitVec.ofInt 64 z) = BitVec.ofInt 32 z := by
  apply BitVec.eq_of_toNat_eq
  zify
  rw [toNat_lowWord]
  push_cast
  rw [toNat_ofInt_eq_emod, toNat_ofInt_eq_emod]
  omega

theorem highWord_ofInt (z : Int) : highWord (BitVec.ofInt 64 z) = BitVec.ofInt 32 (z / 2 ^ 32) := by
  apply BitVec.eq_of_toNat_eq
  zify
  rw [toNat_highWord]
  push_cast
  rw [toNat_ofInt_eq_emod, toNat_ofInt_eq_emod]
  omega

/-! ### The product under both readings -/

theorem mul64_false_eq_ofInt (a b : Word) : mul64 false a b = BitVec.ofInt 64 (a.toNat * b.toNat) := by
  rw [mul64_false, ← BitVec.ofInt_natCast, Nat.cast_mul]

theorem toNat_mul64_false (a b : Word) : (mul64 false a b).toNat = a.toNat * b.toNat := by
  have hlt : a.toNat * b.toNat < 2 ^ 32 * 2 ^ 32 := Nat.mul_lt_mul'' a.isLt b.isLt
  rw [mul64_false, BitVec.toNat_ofNat, Nat.mod_eq_of_lt (by simpa using hlt)]

theorem toNat_mul64_true (a b : Word) : ((mul64 true a b).toNat : Int) = a.toInt * b.toInt % 2 ^ 64 :=
  toNat_ofInt_eq_emod _

/-- The low Word does not depend on the signedness (R171): both readings of an operand are the same Word. -/
theorem lowWord_mul64 (signed : Bool) (a b : Word) : lowWord (mul64 signed a b) = a * b := by
  cases signed with
  | false => rw [mul64_false_eq_ofInt, lowWord_ofInt, BitVec.ofInt_mul]; simp
  | true => rw [mul64_true, lowWord_ofInt, BitVec.ofInt_mul]; simp

/-- Reading one factor as signed takes the other factor off the high Word where the bit 31 of the first is set. -/
theorem highWord_toInt_mul (a : Word) (z : Int) :
    highWord (BitVec.ofInt 64 (a.toInt * z)) =
      highWord (BitVec.ofInt 64 (a.toNat * z)) - if a.getLsbD 31 then BitVec.ofInt 32 z else 0 := by
  have hread : a.toInt = if a.getLsbD 31 then (a.toNat - 2 ^ 32 : Int) else (a.toNat : Int) :=
    BitVec.toInt_eq_msb_cond a
  by_cases hbit : a.getLsbD 31
  · have hquot : a.toInt * z / 2 ^ 32 = a.toNat * z / 2 ^ 32 + -z := by
      rw [hread, if_pos hbit, sub_mul, Int.sub_mul_ediv_left _ _ (by norm_num), sub_eq_add_neg]
    rw [if_pos hbit, highWord_ofInt, highWord_ofInt, hquot, BitVec.ofInt_add, BitVec.ofInt_neg, BitVec.sub_eq_add_neg]
  · rw [if_neg hbit, hread, if_neg hbit]
    exact (BitVec.sub_zero _).symm

theorem highWord_mul64_true (a b : Word) :
    highWord (mul64 true a b) =
      highWord (mul64 false a b) - (if a.getLsbD 31 then b else 0) - (if b.getLsbD 31 then a else 0) := by
  calc highWord (mul64 true a b)
      = highWord (BitVec.ofInt 64 (b.toInt * a.toInt)) := by rw [mul64_true, mul_comm]
    _ = highWord (BitVec.ofInt 64 (a.toInt * b.toNat)) - (if b.getLsbD 31 then a else 0) := by
        rw [highWord_toInt_mul, BitVec.ofInt_toInt, mul_comm]
    _ = highWord (mul64 false a b) - (if a.getLsbD 31 then b else 0) - (if b.getLsbD 31 then a else 0) := by
        rw [highWord_toInt_mul, mul64_false_eq_ofInt, BitVec.ofInt_natCast 32 b.toNat, BitVec.ofNat_toNat,
          BitVec.setWidth_eq]

/-- Settles O35: the two numbers, their common low Word, and the correction of the high Word, one operand at a time. -/
theorem productUnderBothReadings : Obligations.ProductUnderBothReadings := fun a b =>
  ⟨toNat_mul64_false a b, toNat_mul64_true a b, lowWord_mul64 false a b, lowWord_mul64 true a b,
    highWord_mul64_true a b⟩

/-! ### `mul` -/

/-- `mul` with a register after `in_reg` (R172): the two Words of the product, and the registers it may write. -/
theorem exec_mul_effect (inReg outReg : RegIdx) (value : Word) (s : State) (h : inReg.val + 1 < 16) :
    ∃ t, exec (.mul inReg outReg value) s = .next t ∧
      (t.reg inReg).toNat + 2 ^ 32 * (t.reg ⟨inReg.val + 1, h⟩).toNat =
        (mul64 s.cfg.mulSigned (s.reg inReg) (s.reg outReg + value)).toNat ∧
      t.pc = s.pc ∧ Keeps [inReg, ⟨inReg.val + 1, h⟩] [] s t := by
  rw [exec_mul, State.multiply_ok s inReg outReg value h]
  refine ⟨_, finish_ok _, ?pair, rfl, fun q hq => ?frame, fun _ _ => rfl, ⟨rfl, rfl, rfl⟩, rfl, rfl⟩
  case pair =>
    have hne : inReg ≠ ⟨inReg.val + 1, h⟩ := Fin.ne_of_lt (Nat.lt_succ_self inReg.val)
    rw [State.keepRunning_reg, State.keepRunning_reg, State.reg_setReg_other _ _ _ _ hne, State.reg_setReg_same,
      State.reg_setReg_same]
    exact toNat_lowWord_add_highWord _
  case frame =>
    obtain ⟨hlow, hhigh⟩ : q ≠ inReg ∧ q ≠ ⟨inReg.val + 1, h⟩ := by simpa using hq
    rw [State.keepRunning_reg, State.reg_setReg_other _ _ _ _ hhigh, State.reg_setReg_other _ _ _ _ hlow]

/-- Settles O36: the pair holds the product, whose number is the one O35 gives; 15 has no register after it. -/
theorem mulSplitsProduct : Obligations.MulSplitsProduct := by
  refine ⟨fun inReg outReg value s h => ?_, fun outReg value s => ?_, decodesRR_of_operandsOf rfl fun _ => rfl⟩
  · obtain ⟨t, hexec, hpair, hrest⟩ := exec_mul_effect inReg outReg value s h
    refine ⟨t, hexec, fun hsigned => ?_, fun hsigned => ?_, hrest⟩
    · rw [hpair, hsigned, toNat_mul64_false]
    · rw [← toNat_mul64_true, ← hsigned]
      exact_mod_cast hpair
  · rw [exec_mul, State.multiply_error s 15 outReg value le_rfl]
    rfl

/-! ### `loadr` and `mov` -/

/-- Settles O37: in bounds the register write of the loaded word, outside the fault of the read. -/
theorem loadrLoadsFromRegisterAddress : Obligations.LoadrLoadsFromRegisterAddress := by
  refine ⟨fun inReg outReg value s => ⟨fun hin => ?_, fun hout => ?_⟩, decodesRR_of_operandsOf rfl fun _ => rfl⟩
  · rw [exec_loadr, State.loadInto_ok s inReg outReg value hin]
    exact finish_setReg_completes s inReg _
  · rw [exec_loadr, State.loadInto_error s inReg outReg value hout]
    rfl

/-- Settles O34: the register write of the sum `State.regPlus`, and the RR fields. -/
theorem movCopiesWithOffset : Obligations.MovCopiesWithOffset := by
  refine ⟨fun inReg outReg value s => ?_, decodesRR_of_operandsOf rfl fun _ => rfl⟩
  rw [exec_mov]
  exact finish_setReg_completes s inReg (s.regPlus outReg value)

end Sys2Proof.Machine
end

section
/-! PROOFS (spec/60_exceptions.md R200 to R208). Every fault a handler can raise, by its site, and every fault of
a step; what the Processor does after a fault, and a `syscall` that ends the run. -/

namespace Sys2Proof.Machine

/-! ### The faults of a handler -/

/-- The sites at which a handler raises a fault, each with its condition (R202, R203). The dispatch is none of them. -/
inductive HandlerFault (s : State) : Instr → Fault → Prop where
  | push (reg : RegIdx) (value : Word) (hout : s.cfg.memSize ≤ (s.sp - 1).toNat) :
      HandlerFault s (.push reg value) (.boundsMem (s.sp - 1) s.site)
  | popRead (reg : RegIdx) (value : Word) (hout : s.cfg.memSize ≤ s.sp.toNat) :
      HandlerFault s (.pop reg value) (.boundsMem s.sp s.site)
  /-- the clearing write, at the stack pointer the pop has just loaded (R131 (e); log 12) -/
  | popClear (value : Word) (hin : s.sp.toNat < s.cfg.memSize)
      (hout : s.cfg.memSize ≤ (s.mem.read s.sp.toNat + value).toNat) :
      HandlerFault s (.pop spReg value) (.boundsMem (s.mem.read s.sp.toNat + value) s.site)
  | jump {i : Instr} (htaken : JumpTaken i s.flags) (hout : s.cfg.memSize ≤ (s.sp - 1).toNat) :
      HandlerFault s i (.boundsMem (s.sp - 1) s.site)
  | ret (reg : RegIdx) (value : Word) (hout : s.cfg.memSize ≤ s.sp.toNat) :
      HandlerFault s (.ret reg value) (.boundsMem s.sp s.site)
  | mul (outReg : RegIdx) (value : Word) : HandlerFault s (.mul 15 outReg value) (.boundsReg 16 s.site)
  | loadr (inReg outReg : RegIdx) (value : Word)
      (hout : s.cfg.memSize ≤ (s.effectiveAddress outReg value).toNat) :
      HandlerFault s (.loadr inReg outReg value) (.boundsMem (s.effectiveAddress outReg value) s.site)

/-- A taken jump faults by its push only (R150). -/
theorem HandlerFault.of_jumpTaken {i : Instr} {s : State} {f : Fault} (htaken : JumpTaken i s.flags)
    (h : exec i s = .fault f) : HandlerFault s i f := by
  rw [exec_of_jumpTaken htaken] at h
  obtain ⟨hout, rfl⟩ := State.jumpAndPush_eq_error (finish_eq_fault_iff.mp h)
  exact .jump htaken hout

theorem HandlerFault.of_conditional {i : Instr} {s : State} {f : Fault} (hi : i.mnemonic ∈ conditionalJumps)
    (h : exec i s = .fault f) : HandlerFault s i f := by
  by_cases htaken : JumpTaken i s.flags
  · exact .of_jumpTaken htaken h
  · rw [exec_of_not_jumpTaken hi htaken] at h
    cases h

/-- A handler raises no fault but at these sites. -/
theorem HandlerFault.of_exec {i : Instr} {s : State} {f : Fault} (h : exec i s = .fault f) : HandlerFault s i f := by
  cases i with
  | addi | lc | mov => cases (finish_eq_fault_iff (r := .ok _)).mp h
  | syscall reg value =>
    obtain ⟨t, hcompletes⟩ := execSyscall_completes reg value s
    cases hcompletes.symm.trans h
  | push reg value =>
    obtain ⟨hout, rfl⟩ := State.pushWord_eq_error (finish_eq_fault_iff.mp h)
    exact .push reg value hout
  | pop reg value =>
    obtain ⟨hout, rfl⟩ | ⟨hin, rfl, hout, rfl⟩ := State.popInto_eq_error (finish_eq_fault_iff.mp h)
    · exact .popRead reg value hout
    · exact .popClear value hin hout
  | jmp => exact .of_jumpTaken trivial h
  | jne | jeq | jle | jl | jge | jg => exact .of_conditional (by simp [conditionalJumps, Instr.mnemonic]) h
  | ret reg value =>
    obtain ⟨hout, rfl⟩ := State.returnVia_eq_error (finish_eq_fault_iff.mp h)
    exact .ret reg value hout
  | mul inReg outReg value =>
    obtain ⟨rfl, rfl⟩ := State.multiply_eq_error (finish_eq_fault_iff.mp h)
    exact .mul outReg value
  | loadr inReg outReg value =>
    obtain ⟨hout, rfl⟩ := State.loadInto_eq_error (finish_eq_fault_iff.mp h)
    exact .loadr inReg outReg value hout

/-- At each of these sites the handler does raise the fault. -/
theorem HandlerFault.exec_eq {i : Instr} {s : State} {f : Fault} (h : HandlerFault s i f) : exec i s = .fault f := by
  cases h with
  | push reg value hout => rw [exec_push, State.pushWord_error s _ hout]; rfl
  | popRead reg value hout => rw [exec_pop, State.popInto_error_read s reg value hout]; rfl
  | popClear value hin hout =>
    rw [exec_pop, State.popInto_error_write s spReg value _ hin (State.reg_setReg_same s spReg _).symm hout]; rfl
  | jump htaken hout => rw [exec_of_jumpTaken htaken, State.jumpAndPush_error s _ hout]; rfl
  | ret reg value hout => rw [exec_ret, State.returnVia_error s value hout]; rfl
  | mul outReg value => rw [exec_mul, State.multiply_error s 15 outReg value le_rfl]; rfl
  | loadr inReg outReg value hout => rw [exec_loadr, State.loadInto_error s inReg outReg value hout]; rfl

theorem exec_eq_fault_iff {i : Instr} {s : State} {f : Fault} : exec i s = .fault f ↔ HandlerFault s i f :=
  ⟨HandlerFault.of_exec, HandlerFault.exec_eq⟩

/-- Settles O43: `mul` is the one site of `HandlerFault` whose cause is a register index. -/
theorem registerFaultOnlyByMul15 : Obligations.RegisterFaultOnlyByMul15 := by
  intro i s n site
  rw [exec_eq_fault_iff]
  constructor
  · intro h
    cases h with
    | mul outReg value => exact ⟨⟨outReg, value, rfl⟩, rfl, rfl⟩
  · rintro ⟨⟨outReg, value, rfl⟩, rfl, rfl⟩
    exact .mul outReg value

/-- Settles O42: the address is the one of the site of `HandlerFault`; a taken jump is one of seven. -/
theorem memoryFaultSitesAreTheListedOnes : Obligations.MemoryFaultSitesAreTheListedOnes := by
  refine ⟨fun i s a site h => ?handler, fun s a site hs hpc => ?fetch⟩
  case handler =>
    cases HandlerFault.of_exec h with
    | push _ _ hout => exact ⟨hout, rfl, rfl⟩
    | popRead _ _ hout => exact ⟨hout, rfl, .inl rfl⟩
    | popClear _ _ hout => exact ⟨hout, rfl, .inr ⟨rfl, rfl⟩⟩
    | ret _ _ hout => exact ⟨hout, rfl, rfl⟩
    | loadr _ _ _ hout => exact ⟨hout, rfl, rfl⟩
    | jump htaken hout =>
      refine ⟨hout, rfl, ?_⟩
      cases i with
      | jmp => rfl
      | jne | jeq | jle | jl | jge | jg => exact ⟨htaken, rfl⟩
      | addi | lc | push | pop | syscall | ret | mov | mul | loadr => exact htaken.elim
  case fetch =>
    rw [step_of_fetch_error s hs hpc]
    simp [eq_comm]

/-! ### The faults of a step -/

/-- Everything a faulting step may have ended in (R200): the fetch, the dispatch or the handler. -/
theorem step_eq_fault {s : State} {f : Fault} (h : step s = .fault f) :
    s.Startable ∧
      ((s.cfg.memSize ≤ s.pc.toNat ∧ f = .boundsMem s.pc s.pc) ∨
        s.pc.toNat < s.cfg.memSize ∧
          (((∀ m, s.cfg.opc.code m ≠ opcodeField (s.mem.read s.pc.toNat)) ∧
              f = .dispatch (opcodeField (s.mem.read s.pc.toNat)) s.pc) ∨
            ∃ i, decode s.cfg.opc (s.mem.read s.pc.toNat) = .instr i ∧
              HandlerFault { s with pc := s.pc + 1 } i f)) := by
  have hs : s.Startable := by
    by_contra hnot
    obtain ⟨r, hr⟩ := (step_refused_iff s).mpr hnot
    cases hr.symm.trans h
  refine ⟨hs, ?_⟩
  by_cases hpc : s.pc.toNat < s.cfg.memSize
  · refine .inr ⟨hpc, ?_⟩
    obtain ⟨-, hnone⟩ | ⟨m, -, hdec⟩ := decode_cases s.cfg.opc (s.mem.read s.pc.toNat)
    · exact .inl ⟨hnone, Host.Outcome.fault.inj (h.symm.trans (step_of_unassigned hs hpc hnone))⟩
    · exact .inr ⟨_, hdec, HandlerFault.of_exec ((step_of_instr s hs hpc hdec).symm.trans h)⟩
  · have hout := Nat.not_lt.mp hpc
    exact .inl ⟨hout, Host.Outcome.fault.inj (h.symm.trans (step_of_fetch_error s hs hout))⟩

/-- Settles O4: the fetch and the sites of `HandlerFault` raise bounds faults only. -/
theorem dispatchFaultRaisedExactlyByDispatch : Obligations.DispatchFaultRaisedExactlyByDispatch := by
  intro s op site
  constructor
  · intro h
    obtain ⟨hs, ⟨-, hfetch⟩ | ⟨hpc, ⟨hnone, hdispatch⟩ | ⟨i, -, hhandler⟩⟩⟩ := step_eq_fault h
    · cases hfetch
    · cases hdispatch
      exact ⟨hs, hpc, rfl, hnone, rfl⟩
    · cases hhandler
  · rintro ⟨hs, hpc, rfl, hnone, rfl⟩
    exact step_of_unassigned hs hpc hnone

/-! ### After a fault -/

@[simp] theorem State.faultedWith_cfg (s : State) (f : Fault) : (s.faultedWith f).cfg = s.cfg := rfl
@[simp] theorem State.faultedWith_console (s : State) (f : Fault) : (s.faultedWith f).console = s.console := rfl
@[simp] theorem State.faultedWith_runState (s : State) (f : Fault) : (s.faultedWith f).runState = .faulted f := rfl

/-- Settles O8: the state after the fault is `State.faultedWith`, from which only a load is not refused. -/
theorem faultIsTerminal : Obligations.FaultIsTerminal := by
  intro s f h
  have hrefusal := State.startRefusal_of_faulted (s.faultedWith_runState f)
  exact ⟨s.faultedWith f, State.execTransaction_of_fault h, s.faultedWith_runState f, s.faultedWith_console f,
    State.execTransaction_of_refused hrefusal, fun v => State.setFlags_of_refusal v hrefusal,
    fun entry ws hlen => ⟨_, State.loadProgram_ok _ entry ws (by simpa using hlen), State.loaded_runState _ entry ws⟩⟩

/-! ### A halt -/

/-- The two halting arms of `syscall` write no register (R141, R146). -/
theorem execSyscall_keepsRegs_of_endsRun {r : RegIdx} {v : Word} {s t : State} (hends : EndsRun s.cfg.sys v.toInt)
    (h : execSyscall r v s = .next t) : KeepsRegs [] s t := by
  obtain hexit | hunknown := hends
  · obtain rfl := Host.Outcome.next.inj ((execSyscall_of_exit r hexit).symm.trans h)
    exact fun _ _ => rfl
  · obtain rfl := Host.Outcome.next.inj ((execSyscall_of_unknown r hunknown).symm.trans h)
    exact fun _ _ => rfl

/-- Settles O28: `exec_runState` leaves only a `syscall` that ends the run, and a halted state refuses as R100 says. -/
theorem haltOnlyBySyscall : Obligations.HaltOnlyBySyscall := by
  intro i s t r hexec hhalt
  obtain hrun | ⟨reg, value, rfl, hends, -⟩ := exec_runState hexec
  · cases hrun.symm.trans hhalt
  have hrefusal := State.startRefusal_of_halted hhalt
  refine ⟨⟨reg, value, rfl⟩, execSyscall_pc hexec, execSyscall_keepsRegs_of_endsRun hends hexec, ?memory,
    (BoundedEffect.of_execSyscall hexec).control, fun u hstep => State.execTransaction_of_halt hstep hhalt, rfl,
    State.execTransaction_of_refused hrefusal, fun v => State.setFlags_of_refusal v hrefusal,
    fun entry ws hlen => ⟨_, State.loadProgram_ok t entry ws hlen⟩⟩
  case memory => exact fun a _ => congrArg (Memory.read · a) (execSyscall_mem hexec)

end Sys2Proof.Machine
end

section
/-! PROOFS (spec/70_reset_and_hazards.md R231 to R233). Which images `load_program` accepts, what the first step after a
load does where it fetches no word of the image, and how little of the state before a load it reads. -/

namespace Sys2Proof.Machine

/-! ### Accepted images -/

/-- R232 for an image with an element 0: it is accepted exactly if its memory words fit. -/
theorem State.exists_loadProgram_eq_ok_iff (s : State) (e : Word) (ws : List Word) :
    (∃ t, s.loadProgram (e :: ws) = .ok t) ↔ ws.length ≤ s.cfg.memSize := by
  constructor
  · rintro ⟨t, hload⟩
    obtain ⟨_, _, himage, hlen, -⟩ := State.loadProgram_eq_ok hload
    obtain ⟨-, rfl⟩ := List.cons.inj himage
    exact hlen
  · exact fun hlen => ⟨_, State.loadProgram_ok s e ws hlen⟩

/-! ### The first step after a load -/

theorem State.loaded_startable (s : State) (e : Word) (ws : List Word) : (s.loaded e ws).Startable :=
  .inl (State.loaded_runState s e ws)

/-- An entry past the image, yet in memory, fetches the word 0, whose opcode the default map leaves unassigned (R85). -/
theorem step_loaded_of_entry_past_image {s : State} {e : Word} {ws : List Word} (hopc : s.cfg.opc = Opcodes.default)
    (hlen : ws.length ≤ e.toNat) (he : e.toNat < s.cfg.memSize) : step (s.loaded e ws) = .fault (.dispatch 0 e) := by
  have hzero : (s.loaded e ws).mem.read e.toNat = 0 := by
    rw [State.loaded_read, List.getD_eq_default ws 0 hlen]
  obtain ⟨-, -, hzeroWord⟩ := unassignedOpcodesAreIllegal
  exact hzeroWord _ (State.loaded_startable s e ws) he hopc hzero

/-- A load takes any entry; one outside memory is found out by the first fetch (R52, R232). -/
theorem step_loaded_of_entry_outside {s : State} {e : Word} (ws : List Word) (he : s.cfg.memSize ≤ e.toNat) :
    step (s.loaded e ws) = .fault (.boundsMem e e) :=
  step_of_fetch_error _ (State.loaded_startable s e ws) he

/-- Settles O46: acceptance is the length check alone, and the two first steps are those of an entry where the image has
no word, in memory and outside it. -/
theorem imageAcceptance : Obligations.ImageAcceptance := by
  refine fun s => ⟨State.loadProgram_nil s, State.exists_loadProgram_eq_ok_iff s, fun entry => ?noWords,
    fun entry ws hlen hout => ?outside⟩
  case noWords =>
    exact ⟨_, State.loadProgram_ok s entry [] (Nat.zero_le _),
      fun hopc hin => step_loaded_of_entry_past_image hopc (Nat.zero_le _) hin⟩
  case outside => exact ⟨_, State.loadProgram_ok s entry ws hlen, step_loaded_of_entry_outside ws hout⟩

/-! ### What a load reads of the state before -/

/-- A load reads the configuration and the console's inputs; the record of events it empties (R231; log 9). -/
theorem State.loaded_congr {s s' : State} (hcfg : s.cfg = s'.cfg) (hanswers : s.console.answers = s'.console.answers)
    (hdraws : s.console.draws = s'.console.draws) (e : Word) (ws : List Word) : s.loaded e ws = s'.loaded e ws := by
  simp only [State.loaded, hcfg, hanswers, hdraws]

/-- Settles O47: the length check reads the configuration only, and an accepted load is `State.loaded`. -/
theorem loadForgetsThePast : Obligations.LoadForgetsThePast := by
  intro s s' image hcfg hanswers hdraws
  cases image with
  | nil => rw [State.loadProgram_nil, State.loadProgram_nil]
  | cons e ws =>
    obtain hlong | hfits := Nat.lt_or_ge s.cfg.memSize ws.length
    · rw [State.loadProgram_tooLong s e ws hlong, State.loadProgram_tooLong s' e ws (hcfg ▸ hlong)]
    · rw [State.loadProgram_ok s e ws hfits, State.loadProgram_ok s' e ws (hcfg ▸ hfits),
        State.loaded_congr hcfg hanswers hdraws]

end Sys2Proof.Machine
end
